-- ==== Sys2Proof/Word.lean ====
section
/-!
DEFINITION. The value types of 00_scope.md R11: Byte, Word, and Block.

A Block is at once the spec's Block (16 bytes `blk[0..15]`), its State (a 4×4 matrix of bytes `s[r][c]`) and the
contents of a four-word register: 20_memory.md R61 with 00_scope.md R12 make word j of a register column j of the
State, with row 0 in bits [31:24], so the three are one value read in three ways (log 12). The readings are in
Machine/Operands.lean.
-/

namespace Sys2Proof

/-- R11: an unsigned 8-bit value. -/
abbrev Byte := BitVec 8

/-- R11: a 32-bit value, its first byte in bits [31:24]. -/
abbrev Word := BitVec 32

/-- Four words: a 16-byte operand register (R61), a block, or a State by columns (R12, R26). -/
structure Block where
  w0 : Word
  w1 : Word
  w2 : Word
  w3 : Word
deriving DecidableEq, Repr

/-- Every byte 0: the reset value of KEY, IV, DIN, ST and CHAIN (R41). -/
def Block.zero : Block := ⟨0, 0, 0, 0⟩

/-- The round-key schedule: 44 words (R28). -/
abbrev Schedule := Vector Word 44

end Sys2Proof
end

