-- ==== Sys2Proof/Syntax.lean ====
section
/-!
DEFINITION. The commands of the core, one constructor per row of spec/opcode_table.json (30_encoding.md R93).
LEN is a fixed field of every row, so only ARK carries an operand.
-/

namespace Sys2Proof

/-- R93: the fourteen commands. -/
inductive Instr where
  /-- R230: no operation. -/
  | nop
  /-- R145: expand the key. -/
  | keyexp
  /-- R211: initialize the chain value from IV. -/
  | chinit
  /-- R212: CBC-encrypt one block. -/
  | enc
  /-- R213: CBC-decrypt one block. -/
  | dec
  /-- R232: load the state register from DIN. -/
  | ldst
  /-- R162: SubBytes on ST. -/
  | sub
  /-- R163: InvSubBytes on ST. -/
  | invsub
  /-- R165: ShiftRows on ST. -/
  | shr
  /-- R166: InvShiftRows on ST. -/
  | invshr
  /-- R168: MixColumns on ST. -/
  | mix
  /-- R169: InvMixColumns on ST. -/
  | invmix
  /-- R170: add round key `r` to ST. The field RK has 4 bits (R91); its legal values are 0 to 10 (R94). -/
  | ark (r : BitVec 4)
  /-- R171: add the chain value to ST. -/
  | arkc
deriving DecidableEq, Repr

end Sys2Proof
end

