-- ==== Sys2Proof/WellFormed.lean ====
section
/-!
DEFINITION. Well-formed commands: the one operand there is, ARK's round-key number, is legal (30_encoding.md R94).
-/

namespace Sys2Proof

/-- R94: "For ARK its legal values are 0 to 10". The other commands have no operand to check. -/
def Instr.wf : Instr → Bool
  | .nop | .keyexp | .chinit | .enc | .dec | .ldst => true
  | .sub | .invsub | .shr | .invshr | .mix | .invmix => true
  | .ark r => decide (r.toNat ≤ 10)
  | .arkc => true

end Sys2Proof
end

