-- ==== Sys2Proof/Decode.lean ====
section
/-!
DEFINITION. The command decoder, total on every 32-bit word (30_encoding.md R90 to R98): checks 1 and 2 of
60_exceptions.md R242, in that order, each refusal under a name of its own. The checks of STATUS (check 3 of R242) are
the machine's (Machine/Ops.lean). After it the encoder (R92), written from the same table R93.
-/

namespace Sys2Proof

/-- Why the decoder refuses a word: the encoding and length checks of R242. -/
inductive Reject where
  /-- R96: one of bits [31:24], [15:12], [7:6] is 1. -/
  | reservedBits
  /-- R97: OP is in no row of R93. -/
  | reservedOpcode
  /-- R94: RK is not 0 for a command other than ARK, or is above 10 for ARK. -/
  | roundKeyField
  /-- R95: LEN is not 0 for a command other than KEYEXP, ENC and DEC. -/
  | lengthField
  /-- R146: KEYEXP with LEN other than 16. -/
  | keyLength
  /-- R220: ENC or DEC with LEN other than 16. -/
  | blockLength
deriving DecidableEq, Repr

/-- What a word decodes to: R98, "exactly one outcome". -/
inductive Decoded where
  | command (i : Instr)
  | reject (e : Reject)
deriving DecidableEq, Repr

/-! ### The fields of CMD32 (R91, R92) -/

/-- `OP = v[5:0]`. -/
def opField (v : Word) : BitVec 6 := v.extractLsb' 0 6

/-- `RK = v[11:8]`. -/
def rkField (v : Word) : BitVec 4 := v.extractLsb' 8 4

/-- `LEN = v[23:16]`. -/
def lenField (v : Word) : BitVec 8 := v.extractLsb' 16 8

/-- `RSV = v[31:24] || v[15:12] || v[7:6]`. -/
def reservedField (v : Word) : BitVec 14 := v.extractLsb' 24 8 ++ v.extractLsb' 12 4 ++ v.extractLsb' 6 2

/-- R92: the word of the fields, `zext_32(LEN) << 16 | zext_32(RK) << 8 | zext_32(OP)`. -/
def wordOfFields (op : BitVec 6) (rk : BitVec 4) (len : BitVec 8) : Word :=
  len.zeroExtend 32 <<< 16 ||| rk.zeroExtend 32 <<< 8 ||| op.zeroExtend 32

/-! ### The opcode map (R93) -/

/-- R93: the command of an opcode, with ARK's operand from the field RK; none for a reserved opcode (R97). -/
def instrOfOpcode (op : BitVec 6) (rk : BitVec 4) : Option Instr :=
  match op with
  | 0x00#6 => some .nop
  | 0x01#6 => some .keyexp
  | 0x02#6 => some .chinit
  | 0x03#6 => some .enc
  | 0x04#6 => some .dec
  | 0x08#6 => some .ldst
  | 0x10#6 => some .sub
  | 0x11#6 => some .invsub
  | 0x12#6 => some .shr
  | 0x13#6 => some .invshr
  | 0x14#6 => some .mix
  | 0x15#6 => some .invmix
  | 0x16#6 => some (.ark rk)
  | 0x17#6 => some .arkc
  | _ => none

/-- R94: ARK names a round key 0 to 10; for every other command the field RK is 0. -/
def roundKeyLegal (i : Instr) (rk : BitVec 4) : Bool :=
  match i with
  | .ark _ => decide (rk.toNat ≤ 10)
  | _ => rk == 0

/-- R95, R146, R220: what is wrong with the field LEN, if anything. -/
def lengthReject (i : Instr) (len : BitVec 8) : Option Reject :=
  match i with
  | .keyexp => if len = 16 then none else some .keyLength
  | .enc | .dec => if len = 16 then none else some .blockLength
  | _ => if len = 0 then none else some .lengthField

/-- R242, checks 1 and 2, in that order: the command of a word, or the name of the first check that fails. -/
def decode (v : Word) : Decoded :=
  if reservedField v ≠ 0 then .reject .reservedBits
  else match instrOfOpcode (opField v) (rkField v) with
    | none => .reject .reservedOpcode
    | some i =>
      if roundKeyLegal i (rkField v) then
        match lengthReject i (lenField v) with
        | some e => .reject e
        | none => .command i
      else .reject .roundKeyField

/-- The decoder on an instruction numbered as spec/opcode_table.json numbers it: a command is one word of 32 bits (R90),
and bits above `nbits` are 0. -/
def decodeTableWord (nbits w : Nat) : Option Instr :=
  match decode (BitVec.ofNat 32 (w % 2 ^ nbits)) with
  | .command i => some i
  | .reject _ => none

/-! ### The encoder -/

/-- R93: the opcode of a command. -/
def Instr.opcode : Instr → BitVec 6
  | .nop => 0x00
  | .keyexp => 0x01
  | .chinit => 0x02
  | .enc => 0x03
  | .dec => 0x04
  | .ldst => 0x08
  | .sub => 0x10
  | .invsub => 0x11
  | .shr => 0x12
  | .invshr => 0x13
  | .mix => 0x14
  | .invmix => 0x15
  | .ark _ => 0x16
  | .arkc => 0x17

/-- R93, R94: the field RK of a command. -/
def Instr.rkOperand : Instr → BitVec 4
  | .ark r => r
  | _ => 0

/-- R93, R95: the field LEN of a command: 16 for KEYEXP, ENC and DEC, else 0. -/
def Instr.lenOperand : Instr → BitVec 8
  | .keyexp | .enc | .dec => 16
  | _ => 0

/-- R92: the word of a command. -/
def encode (i : Instr) : Word := wordOfFields i.opcode i.rkOperand i.lenOperand

end Sys2Proof
end

