-- ==== Sys2Proof/Config.lean ====
section
/-!
DEFINITION. What the spec leaves open: the free values, and the two kinds of platform parameter (R9). Each is an
opaque constant: nothing in Lean can evaluate it, so no proof can lean on a value of it.
-/

namespace Sys2Proof

/-- R67, R271: the value `any` of the `draw`-th draw, for a read of word index `index`. The hardware "may show a
partially transformed state, a stale value or anything else there", so the value may depend on everything the core
holds: `held` lists it. DESIGN CHOICE (log 2). -/
opaque Config.anyRead (draw : Nat) (index : BitVec 8) (held : List Word) : Word

/-- R270, R41: word `i` of RK after a reset event, "any mixture of its old contents and partial results of an abandoned
KEYEXP": a free value of the draw and of everything the core held. DESIGN CHOICE (log 3). -/
opaque Config.rkAfterReset (draw : Nat) (i : Nat) (held : List Word) : Word

/-- R75, D4: `CORE_BASE` in units of 1 KiB. The platform chooses it. DESIGN CHOICE (log 9). -/
opaque Config.coreBasePage : Nat

/-- R75: `CORE_BASE`, 1 KiB aligned by construction. -/
def Config.coreBase : Nat := 1024 * Config.coreBasePage

/-- R9, R283: the latency parameters `LAT_KEYEXP`, `LAT_CHINIT`, `LAT_ENC`, `LAT_DEC` and `LAT_PRIM`. -/
inductive LatencyClass where
  | keyexp
  | chinit
  | enc
  | dec
  | prim
deriving DecidableEq, Repr

/-- One less than a latency, so that every latency is at least 1. DESIGN CHOICE (log 8). -/
opaque Config.latencyLessOne (c : LatencyClass) : Nat

/-- R9, R283: a whole number of clock cycles, at least 1. No functional rule depends on it, and no step reads it. -/
def Config.latency (c : LatencyClass) : Nat := Config.latencyLessOne c + 1

end Sys2Proof
end

