-- ==== Sys2Proof/Machine/State.lean ====
section
/-!
DEFINITION. The machine's state (10_state.md R20, R44), the events that drive it (R17, R70), the reasons a step can
stop, and the state after reset (R41).
-/

namespace Sys2Proof.Machine

/-- R240: the result codes of STATUS.ERR. The reserved codes 6 and 7 are never produced (R253) and have no
constructor (log 10). -/
inductive ErrCode where
  /-- 0 NONE: the command was accepted. -/
  | noError
  /-- 1 INVALID_KEY_LENGTH: KEYEXP with LEN other than 16. -/
  | invalidKeyLength
  /-- 2 INVALID_BLOCK_LENGTH: ENC or DEC with LEN other than 16. -/
  | invalidBlockLength
  /-- 3 ILLEGAL_COMMAND: an encoding check of R242 failed. -/
  | illegalCommand
  /-- 4 NO_KEY: KEYV = 0. -/
  | noKey
  /-- 5 NO_CHAIN: CHV = 0. -/
  | noChain
deriving DecidableEq, Repr

/-- One bus access (R77): a word index `addr[9:2]` and, for a write, 32 bits of data. There is no other width (R68). -/
inductive Access where
  | read (index : BitVec 8)
  | write (index : BitVec 8) (value : Word)
deriving DecidableEq, Repr

/-- The events of a run (R17, R70). -/
inductive Event where
  /-- The host performs one access. -/
  | access (a : Access)
  /-- The core's turn: it completes the pending command, if there is one (R40). -/
  | coreTurn
  /-- One rising clock edge with rst = 1, and the access presented in that cycle, if any (R270, R271). -/
  | reset (a : Option Access)
deriving DecidableEq, Repr

/-- R44's tuple, then three fields of the model's own. STATUS.BUSY is not stored: it is `pend ≠ none`. -/
structure State where
  /-- R22 -/
  key : Block
  /-- R24 -/
  iv : Block
  /-- R25 -/
  din : Block
  /-- R26: the block cipher state register, read as DOUT -/
  st : Block
  /-- R27 -/
  chain : Block
  /-- R28: the round-key schedule, read as RKW -/
  rk : Schedule
  /-- R33: STATUS.DONE -/
  done : Bool
  /-- R29: STATUS.KEYV -/
  keyv : Bool
  /-- R30: STATUS.CHV -/
  chv : Bool
  /-- R34: STATUS.OVR -/
  ovr : Bool
  /-- R35: STATUS.ERR -/
  err : ErrCode
  /-- R38: PEND, the accepted command in flight -/
  pend : Option Instr
  /-- The model's own (log 1): the events of the run still to come, in the total order of R70. -/
  inputs : List Event
  /-- The model's own (log 4): what the host has read (R18), each value with its word index, the newest first. -/
  reads : List (BitVec 8 × Word)
  /-- The model's own (log 2): how many values `any` have been drawn. -/
  draws : Nat
deriving DecidableEq, Repr

/-- The core takes no traps (60_exceptions.md R248) and its bus never returns an error (20_memory.md R77): nothing
raises a fault, so this type has no constructor. A refused command is a next state (R241), not a fault. Safe: no step
can end here. -/
inductive Fault where
deriving DecidableEq, Repr

/-- The reasons a step has no meaning. -/
inductive Refusal where
  /-- Raised by an arm of `exec` for an instruction that has no meaning yet. No arm raises it now. Safe: the run stops. -/
  | notModelled (mnemonic : String)
deriving DecidableEq, Repr

/-- R41: the state after reset. RK's contents are unspecified there and unreadable (KEYV = 0); the value 0 of its words
is a DESIGN CHOICE (log 3). The three fields of the model's own start empty (log 1, log 2, log 4). -/
def State.reset : State where
  key := .zero
  iv := .zero
  din := .zero
  st := .zero
  chain := .zero
  rk := Vector.replicate 44 0
  done := false
  keyv := false
  chv := false
  ovr := false
  err := .noError
  pend := none
  inputs := []
  reads := []
  draws := 0

end Sys2Proof.Machine
end

