-- ==== Sys2Proof/Machine/Operands.lean ====
section
/-!
DEFINITION. The readings of an operand: the bytes of a word, the words of a register, the bytes of a block and of a
State (20_memory.md R61, 00_scope.md R11, R12), and the round keys in RK (41_key_schedule.md R143).
-/

namespace Sys2Proof.Machine

/-- R11: byte `k` of a word, byte 0 in bits [31:24]. -/
def byteOf (w : Word) (k : Fin 4) : Byte := w.extractLsb' (24 - 8 * k.val) 8

/-- R11: `b0 || b1 || b2 || b3`. -/
def wordOf (b0 b1 b2 b3 : Byte) : Word := b0 ++ b1 ++ b2 ++ b3

/-- `REGj`, word `j` of a four-word register (R13). -/
def blockWord (b : Block) (j : Fin 4) : Word :=
  match j with
  | 0 => b.w0
  | 1 => b.w1
  | 2 => b.w2
  | 3 => b.w3

/-- `REGj <- v`: the other three words stay (R65, R68). -/
def setBlockWord (b : Block) (j : Fin 4) (v : Word) : Block :=
  match j with
  | 0 => { b with w0 := v }
  | 1 => { b with w1 := v }
  | 2 => { b with w2 := v }
  | 3 => { b with w3 := v }

/-- R61, decode: `REG.blk[4*j + k] = REGj[31-8*k : 24-8*k]`. -/
def blockByte (b : Block) (i : Fin 16) : Byte :=
  byteOf (blockWord b ⟨i.val / 4, by omega⟩) ⟨i.val % 4, by omega⟩

/-- R12: `s[r][c]`, row `r` of column `c`; column `c` is word `c`. -/
def cell (s : Block) (r c : Fin 4) : Byte := byteOf (blockWord s c) r

/-- The State whose byte at row `r`, column `c` is `f r c` (R12). -/
def ofCells (f : Fin 4 → Fin 4 → Byte) : Block :=
  ⟨wordOf (f 0 0) (f 1 0) (f 2 0) (f 3 0), wordOf (f 0 1) (f 1 1) (f 2 1) (f 3 1),
   wordOf (f 0 2) (f 1 2) (f 2 2) (f 3 2), wordOf (f 0 3) (f 1 3) (f 2 3) (f 3 3)⟩

/-- R61, encode: `REGj = b[4j] || b[4j+1] || b[4j+2] || b[4j+3]`; the block of a 32-digit hex string. -/
def blockOfHex (h : BitVec 128) : Block :=
  ⟨h.extractLsb' 96 32, h.extractLsb' 64 32, h.extractLsb' 32 32, h.extractLsb' 0 32⟩

/-- R143: round key `r`, the State whose column `c` is `RK[4r + c]`, for `r` in 0..10. -/
def roundKey (rk : Schedule) (r : Fin 11) : Block :=
  ⟨rk[4 * r.val], rk[4 * r.val + 1], rk[4 * r.val + 2], rk[4 * r.val + 3]⟩

/-- The words of a block, for what a free read may show. -/
def blockWords (b : Block) : List Word := [b.w0, b.w1, b.w2, b.w3]

end Sys2Proof.Machine
end

