-- ==== Sys2Proof/Machine/Flags.lean ====
section
/-!
DEFINITION. STATUS: its computed bit BUSY, its error codes, the word it reads as (10_state.md R31, R32, R240), and
which bits a command needs (30_encoding.md R93).
-/

namespace Sys2Proof.Machine

/-- R32: STATUS.BUSY is 1 exactly when PEND is not none. -/
def busy (s : State) : Bool := s.pend.isSome

/-- R240: the 3-bit code of a result. -/
def errBits : ErrCode → BitVec 3
  | .noError => 0
  | .invalidKeyLength => 1
  | .invalidBlockLength => 2
  | .illegalCommand => 3
  | .noKey => 4
  | .noChain => 5

/-- R31: STATUS as it reads: ERR [10:8], OVR 4, CHV 3, KEYV 2, DONE 1, BUSY 0, the reserved bits 0. -/
def statusWord (s : State) : Word :=
  0#21 ++ errBits s.err ++ 0#3 ++ BitVec.ofBool s.ovr ++ BitVec.ofBool s.chv ++ BitVec.ofBool s.keyv ++
    BitVec.ofBool s.done ++ BitVec.ofBool (busy s)

/-- R242: the code of each check the decoder makes. -/
def rejectCode : Reject → ErrCode
  | .reservedBits | .reservedOpcode | .roundKeyField | .lengthField => .illegalCommand
  | .keyLength => .invalidKeyLength
  | .blockLength => .invalidBlockLength

/-- R93, column "needs": ENC, DEC and ARK need KEYV. -/
def needsKey : Instr → Bool
  | .enc | .dec | .ark _ => true
  | _ => false

/-- R93, column "needs": ENC, DEC and ARKC need CHV. -/
def needsChain : Instr → Bool
  | .enc | .dec | .arkc => true
  | _ => false

/-- Why a command may not run in a state, if it may not: an ARK beyond round key 10 (R94), then check 3 of R242, in its
order: NO_KEY before NO_CHAIN. -/
def refusalCode (i : Instr) (s : State) : Option ErrCode :=
  if !roundKeyLegal i i.rkOperand then some .illegalCommand
  else if needsKey i && !s.keyv then some .noKey
  else if needsChain i && !s.chv then some .noChain
  else none

end Sys2Proof.Machine
end

