-- ==== Sys2Proof/Machine/Ops.lean ====
section
/-!
DEFINITION. The operations every command shares: refusing one, which is all this core has in place of an exception
(60_exceptions.md R241, R248); presenting a word to the decoder (R242); accepting a command (R243); completing one
(10_state.md R40). There is no return from an exception to model (R249).
-/

namespace Sys2Proof.Machine

/-- R241, `raise CmdError(code)`: ERR and DONE are written and nothing else; BUSY is 0 (PEND is none). -/
def raiseCmdError (code : ErrCode) (s : State) : State :=
  { s with err := code, done := true, pend := none }

/-- R243, `Accept`: ERR and DONE are cleared, KEYEXP clears KEYV, and the command is pending. -/
def acceptCommand (i : Instr) (s : State) : State :=
  { s with
    err := .noError
    done := false
    keyv := if i = .keyexp then false else s.keyv
    pend := some i }

/-- R242, `Decode(v)`: a word written to CMD while BUSY = 0 is refused with the code of the first check that fails, or
accepted. -/
def presentCommand (v : Word) (s : State) : State :=
  match decode v with
  | .reject e => raiseCmdError (rejectCode e) s
  | .command i =>
    match refusalCode i s with
    | some code => raiseCmdError code s
    | none => acceptCommand i s

/-- R40: after the command's effect, PEND is none (so BUSY is 0) and DONE is 1; ERR stays as acceptance left it. -/
def finishCommand (s : State) : State := { s with pend := none, done := true }

/-- R40, `CoreComplete`, for the command `i` with its `effect` (`Exec(cmd)`). A command that may not run in this state
ends in its refusal instead, with none of its effect: an accepted command never comes to that (R245), because
acceptance made the same checks and nothing changes them while it is pending (log 5). -/
def completeCommand (i : Instr) (effect : State → State) (s : State) : Host.Outcome State Fault Refusal :=
  match refusalCode i s with
  | some code => .next (raiseCmdError code s)
  | none => .next (finishCommand (effect s))

/-- Everything the core holds, as words: what a value `any` may depend on (R67). -/
def heldWords (s : State) : List Word :=
  blockWords s.st ++ blockWords s.chain ++ s.rk.toList ++ blockWords s.key ++ blockWords s.iv ++ blockWords s.din ++
    (s.pend.map encode).toList ++ [statusWord s]

end Sys2Proof.Machine
end

