-- ==== Sys2Proof/Machine/Bus.lean ====
section
/-!
DEFINITION. The register window and the accesses to it (20_memory.md), and the reset cycle (70_reset_and_hazards.md).
-/

namespace Sys2Proof.Machine

/-- R62: what a word index selects. -/
inductive Location where
  | cmd
  | status
  | key (j : Fin 4)
  | iv (j : Fin 4)
  | din (j : Fin 4)
  | dout (j : Fin 4)
  | chain (j : Fin 4)
  | rkw (i : Fin 44)
  /-- R63 -/
  | reserved
deriving DecidableEq, Repr

/-- R62: the register map, by word index (byte offset `4 * index`). -/
def locate (index : BitVec 8) : Location :=
  let n := index.toNat
  if n = 0x000 / 4 then .cmd
  else if n = 0x004 / 4 then .status
  else if n < 0x010 / 4 then .reserved
  else if n < 0x020 / 4 then .key (Fin.ofNat 4 n)
  else if n < 0x030 / 4 then .iv (Fin.ofNat 4 n)
  else if n < 0x040 / 4 then .din (Fin.ofNat 4 n)
  else if n < 0x050 / 4 then .dout (Fin.ofNat 4 n)
  else if n < 0x060 / 4 then .chain (Fin.ofNat 4 n)
  else if n < 0x100 / 4 then .reserved
  else if n < 0x1B0 / 4 then .rkw (Fin.ofNat 44 (n - 0x100 / 4))
  else .reserved

/-- R60, R69: the word index of a byte offset in the window; address bits [1:0] are dropped. -/
def wordIndex (offset : BitVec 10) : BitVec 8 := offset.extractLsb' 2 8

/-- R69, R75: the word index a system byte address reaches, if it lies in the core's window at `CORE_BASE` (log 9). -/
def systemIndex (address : Nat) : Option (BitVec 8) :=
  if Config.coreBase ≤ address ∧ address < Config.coreBase + 1024 then
    some (wordIndex (BitVec.ofNat 10 (address - Config.coreBase)))
  else none

/-- R64, `MemRead`: the value a read returns, or none where the rule says `any` (R67). -/
def readExact (s : State) (l : Location) : Option Word :=
  match l with
  | .cmd => some 0
  | .status => some (statusWord s)
  | .key j => some (blockWord s.key j)
  | .iv j => some (blockWord s.iv j)
  | .din j => some (blockWord s.din j)
  | .dout j => if busy s then none else some (blockWord s.st j)
  | .chain j => if busy s then none else some (blockWord s.chain j)
  | .rkw i => if busy s || !s.keyv then none else some s.rk[i]
  | .reserved => some 0

/-- The host gets `value` from a read of `index`. -/
def recordRead (index : BitVec 8) (value : Word) (s : State) : State :=
  { s with reads := (index, value) :: s.reads }

/-- R67: the host gets a value drawn freely; each draw is a new one (log 2). -/
def drawRead (index : BitVec 8) (s : State) : State :=
  { s with reads := (index, Config.anyRead s.draws index (heldWords s)) :: s.reads, draws := s.draws + 1 }

/-- R64: a host read changes no state of the core. -/
def busRead (index : BitVec 8) (s : State) : State :=
  match readExact s (locate index) with
  | some value => recordRead index value s
  | none => drawRead index s

/-- R34: a STATUS write with bit 4 = 1 clears OVR; every other bit is ignored. -/
def writeStatus (v : Word) (s : State) : State :=
  if v.getLsbD 4 then { s with ovr := false } else s

/-- R65: a host write while BUSY = 0. -/
def writeIdle (l : Location) (v : Word) (s : State) : State :=
  match l with
  | .cmd => presentCommand v s
  | .status => writeStatus v s
  | .key j => { s with key := setBlockWord s.key j v }
  | .iv j => { s with iv := setBlockWord s.iv j v }
  | .din j => { s with din := setBlockWord s.din j v }
  | .dout _ | .chain _ | .rkw _ | .reserved => s

/-- R66: a host write while BUSY = 1. A write to CMD, KEY, IV or DIN is dropped and sets OVR. -/
def writeBusy (l : Location) (v : Word) (s : State) : State :=
  match l with
  | .cmd | .key _ | .iv _ | .din _ => { s with ovr := true }
  | .status => writeStatus v s
  | .dout _ | .chain _ | .rkw _ | .reserved => s

/-- R65, R66: a host write. -/
def busWrite (index : BitVec 8) (v : Word) (s : State) : State :=
  if busy s then writeBusy (locate index) v s else writeIdle (locate index) v s

/-- R70: one access of the host, complete before the next begins. -/
def performAccess (a : Access) (s : State) : State :=
  match a with
  | .read index => busRead index s
  | .write index v => busWrite index v s

/-- R271: an access presented while rst = 1 is not performed: a write is ignored, a read returns `any`. -/
def accessInReset (a : Option Access) (s : State) : State :=
  match a with
  | some (.read index) => drawRead index s
  | some (.write _ _) | none => s

/-- R270, R41: every piece of state takes its reset value, a pending command is abandoned, and RK is left unspecified
(44 free words, log 3). The model's own fields go on. -/
def resetRegisters (s : State) : State :=
  { State.reset with
    rk := Vector.ofFn fun i => Config.rkAfterReset s.draws i.val (heldWords s)
    inputs := s.inputs
    reads := s.reads
    draws := s.draws + 1 }

/-- R270, R271: one clock edge with rst = 1. -/
def resetCycle (a : Option Access) (s : State) : State := resetRegisters (accessInReset a s)

end Sys2Proof.Machine
end

