-- ==== Sys2Proof/Machine/GaloisField.lean ====
section
/-!
DEFINITION. GF(2^8) arithmetic, the substitution ROMs, the round constants and the mixing matrices
(40_gf_and_sbox.md). The values are the spec's, which marks them as general knowledge (log 15).
-/

namespace Sys2Proof.Machine

/-! ### Arithmetic (R120 to R122); addition is `^^^` -/

/-- R121: `xtime(a)`, the product by `x` reduced by `0x11b`. -/
def xtime (a : Byte) : Byte := if a.getLsbD 7 then (a <<< 1) ^^^ 0x1b else a <<< 1

/-- R121: the loop of `gmul` from bit `i`, with `n` bits of `b` still to read, `a` doubled so far and `p` the sum. -/
def gmulFrom (b : Byte) (n i : Nat) (a p : Byte) : Byte :=
  match n with
  | 0 => p
  | n + 1 => gmulFrom b n (i + 1) (xtime a) (if b.getLsbD i then p ^^^ a else p)

/-- R121: `gmul(a, b)`. -/
def gmul (a b : Byte) : Byte := gmulFrom b 8 0 a 0

/-! ### Substitution ROMs (R125, R126). One row of sixteen entries a number, entry `x0` first. -/

/-- R125: the forward S-box ROM, row `h` for inputs `0xh0` to `0xhf`. -/
def sboxRows : List (BitVec 128) :=
  [0x637c777bf26b6fc53001672bfed7ab76,
   0xca82c97dfa5947f0add4a2af9ca472c0,
   0xb7fd9326363ff7cc34a5e5f171d83115,
   0x04c723c31896059a071280e2eb27b275,
   0x09832c1a1b6e5aa0523bd6b329e32f84,
   0x53d100ed20fcb15b6acbbe394a4c58cf,
   0xd0efaafb434d338545f9027f503c9fa8,
   0x51a3408f929d38f5bcb6da2110fff3d2] ++
  [0xcd0c13ec5f974417c4a77e3d645d1973,
   0x60814fdc222a908846eeb814de5e0bdb,
   0xe0323a0a4906245cc2d3ac629195e479,
   0xe7c8376d8dd54ea96c56f4ea657aae08,
   0xba78252e1ca6b4c6e8dd741f4bbd8b8a,
   0x703eb5664803f60e613557b986c11d9e,
   0xe1f8981169d98e949b1e87e9ce5528df,
   0x8ca1890dbfe6426841992d0fb054bb16]

/-- R126: the inverse S-box ROM. -/
def invSboxRows : List (BitVec 128) :=
  [0x52096ad53036a538bf40a39e81f3d7fb,
   0x7ce339829b2fff87348e4344c4dee9cb,
   0x547b9432a6c2233dee4c950b42fac34e,
   0x082ea16628d924b2765ba2496d8bd125,
   0x72f8f66486689816d4a45ccc5d65b692,
   0x6c704850fdedb9da5e154657a78d9d84,
   0x90d8ab008cbcd30af7e45805b8b34506,
   0xd02c1e8fca3f0f02c1afbd0301138a6b] ++
  [0x3a9111414f67dcea97f2cfcef0b4e673,
   0x96ac7422e7ad3585e2f937e81c75df6e,
   0x47f11a711d29c5896fb7620eaa18be1b,
   0xfc563e4bc6d279209adbc0fe78cd5af4,
   0x1fdda8338807c731b11210592780ec5f,
   0x60517fa919b54a0d2de57a9f93c99cef,
   0xa0e03b4dae2af5b0c8ebbb3c83539961,
   0x172b047eba77d626e169146355210c7d]

/-- The entry of a ROM for input byte `0xhl`: row `h`, column `l`. -/
def romEntry (rows : List (BitVec 128)) (x : Byte) : Byte :=
  (rows.getD (x.toNat / 16) 0).extractLsb' (8 * (15 - x.toNat % 16)) 8

/-- R125 -/
def sbox (x : Byte) : Byte := romEntry sboxRows x

/-- R126 -/
def invSbox (x : Byte) : Byte := romEntry invSboxRows x

/-! ### Round constants and words (R128, R129, R131, R132) -/

/-- R128: `Rcon[1]` to `Rcon[10]`. `Rcon[0]` has no value, and no rule reads it (R144). -/
def rconTable : List Byte := [0x01, 0x02, 0x04, 0x08, 0x10, 0x20, 0x40, 0x80, 0x1b, 0x36]

/-- R128: `Rcon[j]` for `j` in 1..10, the only arguments the key schedule gives it (R144). -/
def rcon (j : Nat) : Byte := rconTable.getD (j - 1) 0

/-- R129: `Rcon[j] || 0x00 || 0x00 || 0x00`. -/
def rconWord (j : Nat) : Word := wordOf (rcon j) 0 0 0

/-- R131: `RotWord(b0 || b1 || b2 || b3) = b1 || b2 || b3 || b0`. -/
def rotWord (w : Word) : Word := wordOf (byteOf w 1) (byteOf w 2) (byteOf w 3) (byteOf w 0)

/-- R132: the forward ROM on each byte. -/
def subWord (w : Word) : Word :=
  wordOf (sbox (byteOf w 0)) (sbox (byteOf w 1)) (sbox (byteOf w 2)) (sbox (byteOf w 3))

/-! ### Mixing matrices (R133, R134): circulants, given by row 0 -/

/-- R133: row 0 of `MIX_M`, `[02, 03, 01, 01]`. -/
def mixRow (k : Fin 4) : Byte :=
  match k with
  | 0 => 0x02
  | 1 => 0x03
  | 2 => 0x01
  | 3 => 0x01

/-- R134: row 0 of `INVMIX_M`, `[0e, 0b, 0d, 09]`. -/
def invMixRow (k : Fin 4) : Byte :=
  match k with
  | 0 => 0x0e
  | 1 => 0x0b
  | 2 => 0x0d
  | 3 => 0x09

/-- R133: `MIX_M[r][k] = [02, 03, 01, 01][(k - r) mod 4]`. -/
def mixMatrix (r k : Fin 4) : Byte := mixRow (k - r)

/-- R134: `INVMIX_M[r][k] = [0e, 0b, 0d, 09][(k - r) mod 4]`. -/
def invMixMatrix (r k : Fin 4) : Byte := invMixRow (k - r)

end Sys2Proof.Machine
end

