-- ==== Sys2Proof/Machine/RoundTransforms.lean ====
section
/-!
DEFINITION. The six round operations as functions on a State, and the primitive commands that apply one of them to ST
(42_round_transforms.md).
-/

namespace Sys2Proof.Machine

/-- R160: `AddRoundKey(s, k)[r][c] = s[r][c] ^ k[r][c]`. -/
def addRoundKey (s k : Block) : Block := ofCells fun r c => cell s r c ^^^ cell k r c

/-- R161 -/
def subBytes (s : Block) : Block := ofCells fun r c => sbox (cell s r c)

/-- R161 -/
def invSubBytes (s : Block) : Block := ofCells fun r c => invSbox (cell s r c)

/-- R164: `ShiftRows(s)[r][c] = s[r][(c + r) mod 4]`. -/
def shiftRows (s : Block) : Block := ofCells fun r c => cell s r (c + r)

/-- R164: `InvShiftRows(s)[r][c] = s[r][(c - r) mod 4]`. -/
def invShiftRows (s : Block) : Block := ofCells fun r c => cell s r (c - r)

/-- R167: the dot product of row `r` of a matrix with column `c` of a State. -/
def dotColumn (m : Fin 4 → Fin 4 → Byte) (s : Block) (r c : Fin 4) : Byte :=
  gmul (m r 0) (cell s 0 c) ^^^ gmul (m r 1) (cell s 1 c) ^^^ gmul (m r 2) (cell s 2 c) ^^^ gmul (m r 3) (cell s 3 c)

/-- R167 -/
def mixColumns (s : Block) : Block := ofCells (dotColumn mixMatrix s)

/-- R167 -/
def invMixColumns (s : Block) : Block := ofCells (dotColumn invMixMatrix s)

/-- The round key an ARK names (R170); a command with its field RK above 10 is refused before it gets here (R94). -/
def arkRoundKey (rk : Schedule) (r : BitVec 4) : Block := roundKey rk (Fin.ofNat 11 r.toNat)

/-- R162: `ST <- SubBytes(ST)`. -/
def execSub (s : State) : Host.Outcome State Fault Refusal :=
  completeCommand .sub (fun s => { s with st := subBytes s.st }) s

/-- R163: `ST <- InvSubBytes(ST)`. -/
def execInvsub (s : State) : Host.Outcome State Fault Refusal :=
  completeCommand .invsub (fun s => { s with st := invSubBytes s.st }) s

/-- R165: `ST <- ShiftRows(ST)`. -/
def execShr (s : State) : Host.Outcome State Fault Refusal :=
  completeCommand .shr (fun s => { s with st := shiftRows s.st }) s

/-- R166: `ST <- InvShiftRows(ST)`. -/
def execInvshr (s : State) : Host.Outcome State Fault Refusal :=
  completeCommand .invshr (fun s => { s with st := invShiftRows s.st }) s

/-- R168: `ST <- MixColumns(ST)`. -/
def execMix (s : State) : Host.Outcome State Fault Refusal :=
  completeCommand .mix (fun s => { s with st := mixColumns s.st }) s

/-- R169: `ST <- InvMixColumns(ST)`. -/
def execInvmix (s : State) : Host.Outcome State Fault Refusal :=
  completeCommand .invmix (fun s => { s with st := invMixColumns s.st }) s

/-- R170: `ST <- AddRoundKey(ST, RoundKey(r))`. -/
def execArk (r : BitVec 4) (s : State) : Host.Outcome State Fault Refusal :=
  completeCommand (.ark r) (fun s => { s with st := addRoundKey s.st (arkRoundKey s.rk r) }) s

/-- R171: `ST <- AddRoundKey(ST, CHAIN)`; CHAIN stays. -/
def execArkc (s : State) : Host.Outcome State Fault Refusal :=
  completeCommand .arkc (fun s => { s with st := addRoundKey s.st s.chain }) s

end Sys2Proof.Machine
end

