-- ==== Sys2Proof/Machine/BlockCipher.lean ====
section
/-!
DEFINITION. The block cipher core: Cipher and InvCipher, eleven stages each, in the order of 43_block_cipher.md R190 and
R192. A schedule is fixed for the whole of a run.
-/

namespace Sys2Proof.Machine

/-- R190: one of stages 1..9, with round key `r`. -/
def cipherStage (rk : Schedule) (s : Block) (r : Fin 11) : Block :=
  addRoundKey (mixColumns (shiftRows (subBytes s))) (roundKey rk r)

/-- R192: one of decrypt stages 9..1, with round key `r`; AddRoundKey comes before InvMixColumns (R194). -/
def invCipherStage (rk : Schedule) (s : Block) (r : Fin 11) : Block :=
  invMixColumns (addRoundKey (invSubBytes (invShiftRows s)) (roundKey rk r))

/-- R190: `Cipher(s, rk)`: stage 0, stages 1 to 9 ascending, stage 10 without MixColumns. -/
def cipher (s : Block) (rk : Schedule) : Block :=
  let s := addRoundKey s (roundKey rk 0)
  let s := [1, 2, 3, 4, 5, 6, 7, 8, 9].foldl (cipherStage rk) s
  addRoundKey (shiftRows (subBytes s)) (roundKey rk 10)

/-- R192: `InvCipher(s, rk)`: round key 10, stages 9 to 1 descending, the final stage without InvMixColumns. -/
def invCipher (s : Block) (rk : Schedule) : Block :=
  let s := addRoundKey s (roundKey rk 10)
  let s := [9, 8, 7, 6, 5, 4, 3, 2, 1].foldl (invCipherStage rk) s
  addRoundKey (invSubBytes (invShiftRows s)) (roundKey rk 0)

end Sys2Proof.Machine
end

