-- ==== Sys2Proof/Machine/KeySchedule.lean ====
section
/-!
DEFINITION. The key schedule expander and KEYEXP (41_key_schedule.md).
-/

namespace Sys2Proof.Machine

/-- R140: `W[i]` for `i` in 4..43, from `W[i-4]` and `W[i-1]`. -/
def nextWord (i : Nat) (fourBack oneBack : Word) : Word :=
  if i % 4 = 0 then fourBack ^^^ subWord (rotWord oneBack) ^^^ rconWord (i / 4) else fourBack ^^^ oneBack

/-- R140: the words `W[0]` to `W[n+3]`, formed in ascending order (R141). -/
def expandWords (k : Block) (n : Nat) : Vector Word (n + 4) :=
  match n with
  | 0 => #v[k.w0, k.w1, k.w2, k.w3]
  | n + 1 =>
    let w := expandWords k n
    (w.push (nextWord (n + 4) w[n] w[n + 3])).cast (by omega)

/-- R140: `Expand(K0, K1, K2, K3)`, `W[0..43]`. -/
def expand (k : Block) : Schedule := expandWords k 40

/-- R145: `RK[i] <- W[i]` for every `i`, and `STATUS.KEYV <- 1`. -/
def execKeyexp (s : State) : Host.Outcome State Fault Refusal :=
  completeCommand .keyexp (fun s => { s with rk := expand s.key, keyv := true }) s

end Sys2Proof.Machine
end

