-- ==== Sys2Proof/Machine/Chaining.lean ====
section
/-!
DEFINITION. The chaining layer: CHINIT, ENC and DEC, and the streams they compute (44_chaining.md).
-/

namespace Sys2Proof.Machine

/-- R211: `CHAIN.blk <- IV.blk`, `STATUS.CHV <- 1`. -/
def execChinit (s : State) : Host.Outcome State Fault Refusal :=
  completeCommand .chinit (fun s => { s with chain := s.iv, chv := true }) s

/-- R212: what ENC leaves in ST and in CHAIN, from DIN, CHAIN and RK. -/
def encBlock (din chain : Block) (rk : Schedule) : Block := cipher (addRoundKey din chain) rk

/-- R213: what DEC leaves in ST, from DIN, CHAIN and RK; the un-whitening uses the chain value held before. -/
def decBlock (din chain : Block) (rk : Schedule) : Block := addRoundKey (invCipher din rk) chain

/-- R212: `ST` and `CHAIN` both take the ciphertext. -/
def execEnc (s : State) : Host.Outcome State Fault Refusal :=
  completeCommand .enc
    (fun s => { s with st := encBlock s.din s.chain s.rk, chain := encBlock s.din s.chain s.rk }) s

/-- R213: `ST` takes the plaintext, `CHAIN` the raw ciphertext. savedChain is DIN, which cannot change while the command
is pending (10_state.md R38; log 11). -/
def execDec (s : State) : Host.Outcome State Fault Refusal :=
  completeCommand .dec
    (fun s => { s with st := decBlock s.din s.chain s.rk, chain := s.din }) s

/-- R210: the ciphertext blocks `C_1, ..., C_n` of a stream under the schedule `rk`, from the chain value `chain`. -/
def encryptBlocks (rk : Schedule) (chain : Block) (blocks : List Block) : List Block :=
  match blocks with
  | [] => []
  | b :: bs => encBlock b chain rk :: encryptBlocks rk (encBlock b chain rk) bs

/-- R210: the plaintext blocks `P_1, ..., P_n`. -/
def decryptBlocks (rk : Schedule) (chain : Block) (blocks : List Block) : List Block :=
  match blocks with
  | [] => []
  | b :: bs => decBlock b chain rk :: decryptBlocks rk b bs

/-- R214: `EncryptStream(K, iv, blocks)`. -/
def encryptStream (key iv : Block) (blocks : List Block) : List Block := encryptBlocks (expand key) iv blocks

/-- R214: `DecryptStream(K, iv, blocks)`. -/
def decryptStream (key iv : Block) (blocks : List Block) : List Block := decryptBlocks (expand key) iv blocks

end Sys2Proof.Machine
end

