-- ==== Sys2Proof/Machine/Control.lean ====
section
/-!
DEFINITION. The control commands NOP and LDST (45_control.md).
-/

namespace Sys2Proof.Machine

/-- R230: `Exec(NOP) = ()`; its completion sets DONE, as for every command. -/
def execNop (s : State) : Host.Outcome State Fault Refusal :=
  completeCommand .nop (fun s => s) s

/-- R232: `ST <- toState(DIN.blk)`, word for word. -/
def execLdst (s : State) : Host.Outcome State Fault Refusal :=
  completeCommand .ldst (fun s => { s with st := s.din }) s

end Sys2Proof.Machine
end

