-- ==== Sys2Proof/Machine/Dispatch.lean ====
section
/-!
DEFINITION. One arm per command: `exec i s` is the core's completion of the command `i` in the state `s`
(10_state.md R40).
-/

namespace Sys2Proof.Machine

def exec (i : Instr) (s : State) : Host.Outcome State Fault Refusal :=
  match i with
  | .nop => Sys2Proof.Machine.execNop s
  | .keyexp => Sys2Proof.Machine.execKeyexp s
  | .chinit => Sys2Proof.Machine.execChinit s
  | .enc => Sys2Proof.Machine.execEnc s
  | .dec => Sys2Proof.Machine.execDec s
  | .ldst => Sys2Proof.Machine.execLdst s
  | .sub => Sys2Proof.Machine.execSub s
  | .invsub => Sys2Proof.Machine.execInvsub s
  | .shr => Sys2Proof.Machine.execShr s
  | .invshr => Sys2Proof.Machine.execInvshr s
  | .mix => Sys2Proof.Machine.execMix s
  | .invmix => Sys2Proof.Machine.execInvmix s
  | .ark r => Sys2Proof.Machine.execArk r s
  | .arkc => Sys2Proof.Machine.execArkc s

end Sys2Proof.Machine
end

