-- ==== Sys2Proof/Machine/Turn.lean ====
section
/-!
DEFINITION. One event of a run (00_scope.md R17): an access of the host, a turn of the core, a reset cycle.
-/

namespace Sys2Proof.Machine

/-- R40: completion is enabled exactly when a command is pending; a turn without one changes nothing. -/
def coreTurn (s : State) : Host.Outcome State Fault Refusal :=
  match s.pend with
  | some i => exec i s
  | none => .next s

/-- R17, R70: one event, by the agent it belongs to. -/
def runEvent (e : Event) (s : State) : Host.Outcome State Fault Refusal :=
  match e with
  | .access a => .next (performAccess a s)
  | .coreTurn => coreTurn s
  | .reset a => .next (resetCycle a s)

/-- The state in which the very next step runs the command of the word `v`: it has been accepted (R243) and the core has
the next turn. A word the decoder refuses stands as a CMD write to an idle core, so that the very next step is its
refusal (log 7). -/
def placeCommand (v : Word) (s : State) : State :=
  match decode v with
  | .command i => { acceptCommand i s with inputs := .coreTurn :: s.inputs }
  | .reject _ => { s with pend := none, inputs := .access (.write 0 v) :: s.inputs }

end Sys2Proof.Machine
end

