-- ==== Sys2Proof/Machine/Step.lean ====
section
/-!
DEFINITION. The step: the next event of the run happens. When the host has nothing more to do, the core has the turn,
so a pending command always completes (70_reset_and_hazards.md R283, weak fairness; log 1, log 8).
-/

namespace Sys2Proof.Machine

def step (s : State) : Host.Outcome State Fault Refusal :=
  match s.inputs with
  | [] => coreTurn s
  | e :: rest => runEvent e { s with inputs := rest }

/-- Place the command of table word `w` where the next step takes its command from (log 7). -/
def State.withFetchWord (s : State) (nbits w : Nat) : State := placeCommand (BitVec.ofNat 32 (w % 2 ^ nbits)) s

end Sys2Proof.Machine
end

