-- ==== Sys2Proof/Machine/HostProgram.lean ====
section
/-!
DEFINITION. The assembler syntax, the host statements and the pseudo-instructions of 30_encoding.md R99 to R102, and
their runs. A host program is a list of statements; in a run of it the two agents of R17 take turns, in any order.
-/

namespace Sys2Proof.Machine

/-- R99: a command as it is written. `keyexp`, `enc` and `dec` may declare a length; `word` is `.word 0xHHHHHHHH`. -/
inductive Asm where
  | nop
  | keyexp (len : Option Nat)
  | chinit
  | enc (len : Option Nat)
  | dec (len : Option Nat)
  | ldst
  | sub
  | invsub
  | shr
  | invshr
  | mix
  | invmix
  | ark (r : Nat)
  | arkc
  | word (v : Word)
deriving DecidableEq, Repr

/-- R99: the word `opcode | len << 16`; no `#len` means `#16`, and a length outside 0..255 does not assemble. -/
def assembleLength (op : BitVec 6) (len : Option Nat) : Option Word :=
  let n := len.getD 16
  if n ≤ 255 then some (wordOfFields op 0 (BitVec.ofNat 8 n)) else none

/-- R99: the word of a command, none where it does not assemble. ARK takes 0 to 15, so that refusals can be written. -/
def assemble (c : Asm) : Option Word :=
  match c with
  | .nop => some (encode .nop)
  | .keyexp len => assembleLength Instr.keyexp.opcode len
  | .chinit => some (encode .chinit)
  | .enc len => assembleLength Instr.enc.opcode len
  | .dec len => assembleLength Instr.dec.opcode len
  | .ldst => some (encode .ldst)
  | .sub => some (encode .sub)
  | .invsub => some (encode .invsub)
  | .shr => some (encode .shr)
  | .invshr => some (encode .invshr)
  | .mix => some (encode .mix)
  | .invmix => some (encode .invmix)
  | .ark r => if r ≤ 15 then some (encode (.ark (BitVec.ofNat 4 r))) else none
  | .arkc => some (encode .arkc)
  | .word v => some v

/-! ### Host statements (R100) -/

/-- R100: the statements a host program is made of. `cmd` and `expect` are a `wr` and a `rd`. -/
inductive HostStatement where
  /-- `wr OFF, VAL` -/
  | wr (offset : BitVec 10) (v : Word)
  /-- `rd OFF -> name`; the value goes to `State.reads` (log 4). -/
  | rd (offset : BitVec 10)
  /-- `wait`: repeat `rd 0x004 -> s` until `s[0] = 0`. -/
  | wait
deriving DecidableEq, Repr

/-- `cmd C`, for the word of `C`. -/
def cmd (v : Word) : HostStatement := .wr 0x000 v

/-- `expect OFF, VAL`, on the bus: "not a bus operation beyond its read". -/
def expect (offset : BitVec 10) : HostStatement := .rd offset

/-- What `expect OFF, VAL` asserts of the state after its read: the value read is `VAL`. -/
def expected (offset : BitVec 10) (v : Word) (s : State) : Prop := s.reads.head? = some (wordIndex offset, v)

/-- The access with which a statement begins, or which `wait` repeats. -/
def statementAccess (c : HostStatement) : Access :=
  match c with
  | .wr offset v => .write (wordIndex offset) v
  | .rd offset => .read (wordIndex offset)
  | .wait => .read (wordIndex 0x004)

/-- `s[0]` of the value `s` the host has just read. -/
def lastReadBit (s : State) : Bool := (s.reads.head?.map fun r => r.2.getLsbD 0).getD false

/-- What the host still has to run when the access of `c`, its first statement, has left the state `s`: a `wait` goes on
until it has read `s[0] = 0`. -/
def remainingProgram (c : HostStatement) (rest : List HostStatement) (s : State) : List HostStatement :=
  match c with
  | .wait => if lastReadBit s then .wait :: rest else rest
  | .wr _ _ | .rd _ => rest

/-! ### Runs of a program (R17, R70) -/

/-- R17: the two agents of a run. -/
inductive Agent where
  | host
  | core
deriving DecidableEq, Repr

/-- The step in which the event `e` happens, before those still queued. -/
def stepWith (e : Event) (s : State) : Host.Outcome State Fault Refusal := step { s with inputs := e :: s.inputs }

/-- A run of the program `p`, the agents taking the given `turns`: what is left of the program, and the state. The spec
leaves the turns to the run (R40, R283), and so how often each `wait` polls: they are an argument, a DESIGN CHOICE
(log 8). A host at the end of its program lets its turns pass. -/
def runProgram (turns : List Agent) (p : List HostStatement) (s : State) :
    Host.Outcome (List HostStatement × State) Fault Refusal :=
  match turns with
  | [] => .next (p, s)
  | .core :: turns =>
    match stepWith .coreTurn s with
    | .next t => runProgram turns p t
    | .fault f => .fault f
    | .refused r => .refused r
  | .host :: turns =>
    match p with
    | [] => runProgram turns [] s
    | c :: rest =>
      match stepWith (.access (statementAccess c)) s with
      | .next t => runProgram turns (remainingProgram c rest t) t
      | .fault f => .fault f
      | .refused r => .refused r

/-! ### Pseudo-instructions (R101) -/

/-- The four writes of a block, from the byte offset of its word 0. -/
def loadBlock (offset : BitVec 10) (b : Block) : List HostStatement :=
  [.wr offset b.w0, .wr (offset + 4) b.w1, .wr (offset + 8) b.w2, .wr (offset + 12) b.w3]

/-- `loadkey <hex32>` -/
def loadkey (b : Block) : List HostStatement := loadBlock 0x010 b

/-- `loadiv <hex32>` -/
def loadiv (b : Block) : List HostStatement := loadBlock 0x020 b

/-- `loaddin <hex32>` -/
def loaddin (b : Block) : List HostStatement := loadBlock 0x030 b

/-- The four reads of a block. -/
def readBlock (offset : BitVec 10) : List HostStatement :=
  [.rd offset, .rd (offset + 4), .rd (offset + 8), .rd (offset + 12)]

/-- `readout -> X` -/
def readout : List HostStatement := readBlock 0x040

/-- `readchain -> X` -/
def readchain : List HostStatement := readBlock 0x050

/-- `run C`, that is `cmd C ; wait`. -/
def run (v : Word) : List HostStatement := [cmd v, .wait]

/-- `clrovr` -/
def clrovr : HostStatement := .wr 0x004 0x00000010

/-! ### The entry points (R102) -/

/-- R102, and steps 1 to 4 of R274: the key schedule, then the chain value. How often each `wait` polls is the run's. -/
def beginSession (key iv : Block) : List HostStatement :=
  loadkey key ++ run (encode .keyexp) ++ loadiv iv ++ run (encode .chinit)

/-- One block of a stream: `loaddin B ; run C ; readout`. -/
def streamBlock (c : Instr) (b : Block) : List HostStatement := loaddin b ++ run (encode c) ++ readout

/-- `Encrypt(key, iv, plaintextBlocks)` -/
def encryptProgram (key iv : Block) (blocks : List Block) : List HostStatement :=
  beginSession key iv ++ blocks.flatMap (streamBlock .enc)

/-- `Decrypt(key, iv, ciphertextBlocks)` -/
def decryptProgram (key iv : Block) (blocks : List Block) : List HostStatement :=
  beginSession key iv ++ blocks.flatMap (streamBlock .dec)

/-- Words, four to a block. -/
def blocksOfWords (ws : List Word) : List Block :=
  match ws with
  | w0 :: w1 :: w2 :: w3 :: rest => ⟨w0, w1, w2, w3⟩ :: blocksOfWords rest
  | _ => []

/-- The value of a read, if it is one of `readout`'s: a read of DOUT. -/
def readoutWord (r : BitVec 8 × Word) : Option Word :=
  match locate r.1 with
  | .dout _ => some r.2
  | .cmd | .status | .key _ | .iv _ | .din _ | .chain _ | .rkw _ | .reserved => none

/-- R102: the output sequence, the values `readout` has read between the states `s` and `t` of a run of an entry
point. -/
def outputSequence (s t : State) : List Block :=
  blocksOfWords ((t.reads.take (t.reads.length - s.reads.length)).reverse.filterMap readoutWord)

end Sys2Proof.Machine
end

