-- ==== Sys2Proof/Safety.lean ====
section
/-!
DEFINITION. What claims are stated in: the invariant of the machine, runs of it and of command sequences, and the
relations between two states.
-/

namespace Sys2Proof.Machine

/-- What every step keeps, and reset has. It rules out states no run reaches. -/
structure Invariant (s : State) : Prop where
  /-- R29, R43: while KEYV = 1, RK is the complete expansion of some key. -/
  schedule : s.keyv = true → ∃ k, s.rk = expand k
  /-- R242, R245: a pending command passes every check it was accepted under. -/
  pendingRuns : ∀ i, s.pend = some i → refusalCode i s = none
  /-- R243: while a KEYEXP is pending, KEYV = 0. -/
  expanding : s.pend = some .keyexp → s.keyv = false
  /-- R33, R286: while a command is pending, DONE = 0. -/
  pendingNotDone : s.pend.isSome = true → s.done = false
  /-- R35, R243: while a command is pending, ERR = 0. -/
  pendingNoError : s.pend.isSome = true → s.err = .noError

/-- `n` steps, stopping at the first fault or refusal. -/
def runSteps (n : Nat) (s : State) : Host.Outcome State Fault Refusal := Host.Core.run Sys2Proof.core n s

/-- Commands completed one after another, stopping at the first fault or refusal. -/
def execAll (is : List Instr) (s : State) : Host.Outcome State Fault Refusal :=
  match is with
  | [] => .next s
  | i :: rest =>
    match exec i s with
    | .next t => execAll rest t
    | .fault f => .fault f
    | .refused r => .refused r

/-- The same command once for each block, each written to DIN first, and DOUT read after each: the blocks read, in
order (R214). None if the machine stops. -/
def execStream (c : Instr) (blocks : List Block) (s : State) : Option (List Block × State) :=
  match blocks with
  | [] => some ([], s)
  | b :: bs =>
    match exec c { s with din := b } with
    | .next t => (execStream c bs t).map fun r => (t.st :: r.1, r.2)
    | .fault _ | .refused _ => none

/-- The two states differ at most in RK and in the model's own record of reads (R28: RK is not usable while
KEYV = 0). -/
def sameButSchedule (s t : State) : Prop := { s with rk := t.rk, reads := t.reads } = t

/-- Everything a pending command reads or a completion writes, apart from OVR (R66, R73). -/
def sameOperands (s t : State) : Prop :=
  s.key = t.key ∧ s.iv = t.iv ∧ s.din = t.din ∧ s.st = t.st ∧ s.chain = t.chain ∧ s.rk = t.rk ∧ s.done = t.done ∧
    s.keyv = t.keyv ∧ s.chv = t.chv ∧ s.err = t.err ∧ s.pend = t.pend

/-- Every field but the model's own: the machine of R44. -/
def sameMachine (s t : State) : Prop := sameOperands s t ∧ s.ovr = t.ovr

end Sys2Proof.Machine
end

