-- ==== Sys2Proof/Certificates/Slice0/Obligations.lean ====
section
/-!
DEFINITION. What is claimed of the machine, from the numbered rules of spec/. A state named `s0` is the state after the
step has taken its event from `inputs`. `none` of `pend` is BUSY = 0.
-/

open Sys2Proof Sys2Proof.Machine

/-! ### Encoding and decoding (30_encoding.md) -/

/-- R93: the word of every well-formed command decodes to that command. -/
def Obligations.DecodeInvertsEncode : Prop :=
  ∀ i : Instr, i.wf = true → decode (encode i) = .command i

/-- R93, R98: a word decodes to a command exactly when it is the word of that command, and the command is
well-formed. -/
def Obligations.DecodeAcceptsExactlyEncodings : Prop :=
  ∀ (v : Word) (i : Instr), decode v = .command i ↔ i.wf = true ∧ v = encode i

/-- R98: the words the decoder accepts are exactly the ones listed. -/
def Obligations.AcceptedWordsOfTheDecoder : Prop :=
  ∀ v : Word, (∃ i, decode v = .command i) ↔
    (v ∈ [0x00000000#32, 0x00100001#32, 0x00000002#32, 0x00100003#32, 0x00100004#32, 0x00000008#32, 0x00000010#32,
        0x00000011#32, 0x00000012#32, 0x00000013#32, 0x00000014#32, 0x00000015#32, 0x00000017#32] ∨
      ∃ r : Nat, r ≤ 10 ∧ v = 0x00000016#32 ||| BitVec.ofNat 32 r <<< 8)

/-- R92: the fields are those bits of the word, and a word with RSV = 0 is rebuilt from its fields. -/
def Obligations.FieldsAreTheBitsOfTheWord : Prop :=
  ∀ v : Word,
    (opField v).toNat = v.toNat % 64 ∧ (rkField v).toNat = v.toNat / 256 % 16 ∧
      (lenField v).toNat = v.toNat / 65536 % 256 ∧
      (reservedField v = 0 ↔ v.toNat / 2 ^ 24 = 0 ∧ v.toNat / 4096 % 16 = 0 ∧ v.toNat / 64 % 4 = 0) ∧
      (reservedField v = 0 →
        v = (lenField v).zeroExtend 32 <<< 16 ||| (rkField v).zeroExtend 32 <<< 8 ||| (opField v).zeroExtend 32)

/-- Words written out from R93 and R99, one of each family and of each refusal of the decoder. -/
def Obligations.TableWordsDecode : Prop :=
  decode 0x00000000 = .command .nop ∧ decode 0x00100001 = .command .keyexp ∧ decode 0x00000002 = .command .chinit ∧
    decode 0x00100003 = .command .enc ∧ decode 0x00100004 = .command .dec ∧ decode 0x00000008 = .command .ldst ∧
    decode 0x00000012 = .command .shr ∧ decode 0x00000a16 = .command (.ark 10) ∧ decode 0x00000017 = .command .arkc ∧
    decode 0x00000b16 = .reject .roundKeyField ∧ decode 0x000f0001 = .reject .keyLength ∧
    decode 0x00110004 = .reject .blockLength ∧ decode 0x00100002 = .reject .lengthField ∧
    decode 0x00000018 = .reject .reservedOpcode ∧ decode 0x80100003 = .reject .reservedBits

/-- R99: the words of the assembler syntax. -/
def Obligations.AssemblerWords : Prop :=
  (∀ len : Nat, len ≤ 255 →
    assemble (.keyexp (some len)) = some (0x00000001 ||| BitVec.ofNat 32 len <<< 16) ∧
      assemble (.enc (some len)) = some (0x00000003 ||| BitVec.ofNat 32 len <<< 16) ∧
      assemble (.dec (some len)) = some (0x00000004 ||| BitVec.ofNat 32 len <<< 16)) ∧
  (∀ len : Nat, 255 < len →
    assemble (.keyexp (some len)) = none ∧ assemble (.enc (some len)) = none ∧ assemble (.dec (some len)) = none) ∧
  assemble (.keyexp none) = assemble (.keyexp (some 16)) ∧ assemble (.enc none) = assemble (.enc (some 16)) ∧
  assemble (.dec none) = assemble (.dec (some 16)) ∧
  (∀ r : Nat, assemble (.ark r) = if r ≤ 15 then some (0x00000016 ||| BitVec.ofNat 32 r <<< 8) else none) ∧
  assemble .nop = some 0x00000000 ∧ assemble .chinit = some 0x00000002 ∧ assemble .ldst = some 0x00000008 ∧
  assemble .sub = some 0x00000010 ∧ assemble .invsub = some 0x00000011 ∧ assemble .shr = some 0x00000012 ∧
  assemble .invshr = some 0x00000013 ∧ assemble .mix = some 0x00000014 ∧ assemble .invmix = some 0x00000015 ∧
  assemble .arkc = some 0x00000017 ∧ ∀ v : Word, assemble (.word v) = some v

/-! ### Writing CMD (60_exceptions.md R240 to R243) -/

/-- R242, with R241 for each refusal and R243 for the acceptance: a word written to CMD while BUSY = 0 is refused with
the code of the first check that fails, changing only ERR and DONE, or it is accepted: ERR and DONE are cleared, KEYEXP
clears KEYV, and the command of that word is pending. -/
def Obligations.CmdWriteRunsTheChecksInOrder : Prop :=
  ∀ (s : State) (v : Word) (rest : List Event),
    s.inputs = .access (.write 0 v) :: rest → s.pend = none →
    let s0 : State := { s with inputs := rest }
    let op := v.extractLsb' 0 6
    let rk := v.extractLsb' 8 4
    let len := v.extractLsb' 16 8
    let refused (code : ErrCode) : Prop := step s = .next { s0 with err := code, done := true }
    if v.extractLsb' 24 8 ≠ 0 ∨ v.extractLsb' 12 4 ≠ 0 ∨ v.extractLsb' 6 2 ≠ 0 then refused .illegalCommand
    else if op ∉ [0x00#6, 0x01#6, 0x02#6, 0x03#6, 0x04#6, 0x08#6, 0x10#6, 0x11#6, 0x12#6, 0x13#6, 0x14#6, 0x15#6,
        0x16#6, 0x17#6] then refused .illegalCommand
    else if (if op = 0x16#6 then 10 < rk.toNat else rk ≠ 0) then refused .illegalCommand
    else if op ∉ [0x01#6, 0x03#6, 0x04#6] ∧ len ≠ 0 then refused .illegalCommand
    else if op = 0x01#6 ∧ len ≠ 16 then refused .invalidKeyLength
    else if op ∈ [0x03#6, 0x04#6] ∧ len ≠ 16 then refused .invalidBlockLength
    else if op ∈ [0x03#6, 0x04#6, 0x16#6] ∧ s.keyv = false then refused .noKey
    else if op ∈ [0x03#6, 0x04#6, 0x17#6] ∧ s.chv = false then refused .noChain
    else ∃ i, encode i = v ∧ step s = .next { s0 with
      err := .noError, done := false, keyv := if op = 0x01#6 then false else s.keyv, pend := some i }

/-- R146: KEYEXP with any declared length but 16 is refused with INVALID_KEY_LENGTH, whatever KEYV and CHV are, and RK,
KEYV, KEY, ST, CHAIN and all else keep their values. -/
def Obligations.WrongKeyLengthIsRefused : Prop :=
  ∀ (s : State) (len : Nat) (rest : List Event), len < 256 → len ≠ 16 → s.pend = none →
    s.inputs = .access (.write 0 (BitVec.ofNat 32 (len * 65536 + 1))) :: rest →
    step s = .next { s with inputs := rest, err := .invalidKeyLength, done := true }

/-- R220: ENC or DEC with any declared length but 16 is refused with INVALID_BLOCK_LENGTH, whatever KEYV and CHV are, and
all else keeps its value. -/
def Obligations.WrongBlockLengthIsRefused : Prop :=
  ∀ (s : State) (len op : Nat) (rest : List Event), len < 256 → len ≠ 16 → op = 3 ∨ op = 4 → s.pend = none →
    s.inputs = .access (.write 0 (BitVec.ofNat 32 (len * 65536 + op))) :: rest →
    step s = .next { s with inputs := rest, err := .invalidBlockLength, done := true }

/-- R245: a command pending in a state the invariant admits never fails. Its completion leaves ERR = 0, DONE = 1 and
BUSY = 0. -/
def Obligations.AcceptedCommandNeverFails : Prop :=
  ∀ (s : State) (i : Instr), Invariant s → s.pend = some i →
    ∃ t, exec i s = .next t ∧ t.err = .noError ∧ t.done = true ∧ t.pend = none ∧ Invariant t

/-! ### Bus writes (20_memory.md R63, R65, R66) -/

/-- R65: what a host write does while BUSY = 0, at each of the 256 word indexes. A register's other words stay. -/
def Obligations.IdleWriteByLocation : Prop :=
  ∀ (s : State) (index : BitVec 8) (v : Word) (rest : List Event),
    s.inputs = .access (.write index v) :: rest → s.pend = none →
    let s0 : State := { s with inputs := rest }
    (index.toNat = 0 → step s = .next (presentCommand v s0)) ∧
    (index.toNat = 1 → step s = .next { s0 with ovr := if v.getLsbD 4 then false else s.ovr }) ∧
    (∀ j : Fin 4, index.toNat = 4 + j.val → ∃ b, step s = .next { s0 with key := b } ∧
      ∀ n, blockWord b n = if n = j then v else blockWord s.key n) ∧
    (∀ j : Fin 4, index.toNat = 8 + j.val → ∃ b, step s = .next { s0 with iv := b } ∧
      ∀ n, blockWord b n = if n = j then v else blockWord s.iv n) ∧
    (∀ j : Fin 4, index.toNat = 12 + j.val → ∃ b, step s = .next { s0 with din := b } ∧
      ∀ n, blockWord b n = if n = j then v else blockWord s.din n) ∧
    (index.toNat = 2 ∨ index.toNat = 3 ∨ 16 ≤ index.toNat → step s = .next s0)

/-- R66: what a host write does while BUSY = 1: to CMD, KEY, IV or DIN it is dropped and sets OVR, to STATUS it is
performed, elsewhere it is ignored. Nothing else changes. -/
def Obligations.BusyWriteByLocation : Prop :=
  ∀ (s : State) (index : BitVec 8) (v : Word) (rest : List Event),
    s.inputs = .access (.write index v) :: rest → s.pend ≠ none →
    let s0 : State := { s with inputs := rest }
    (index.toNat = 0 ∨ 4 ≤ index.toNat ∧ index.toNat < 16 → step s = .next { s0 with ovr := true }) ∧
    (index.toNat = 1 → step s = .next { s0 with ovr := if v.getLsbD 4 then false else s.ovr }) ∧
    (index.toNat = 2 ∨ index.toNat = 3 ∨ 16 ≤ index.toNat → step s = .next s0)

/-- R34: OVR is set by every dropped write and by nothing else, cleared by every STATUS write with bit 4 = 1 (BUSY or
not) and by reset, and cleared by nothing else: no command clears it. -/
def Obligations.OvrIsSetByDropsAndClearedOnlyOnRequest : Prop :=
  (∀ (s t : State) (index : BitVec 8) (v : Word) (rest : List Event),
    s.inputs = .access (.write index v) :: rest → step s = .next t →
    (s.pend ≠ none → index.toNat = 0 ∨ 4 ≤ index.toNat ∧ index.toNat < 16 → t.ovr = true) ∧
    (index.toNat = 1 → v.getLsbD 4 = true → t.ovr = false)) ∧
  (∀ (s t : State) (a : Option Access) (rest : List Event), s.inputs = .reset a :: rest → step s = .next t →
    t.ovr = false) ∧
  ∀ s t : State, step s = .next t →
    (s.ovr = false → t.ovr = true → s.pend ≠ none ∧ ∃ index v rest,
      s.inputs = .access (.write index v) :: rest ∧ (index.toNat = 0 ∨ 4 ≤ index.toNat ∧ index.toNat < 16)) ∧
    (s.ovr = true → t.ovr = false →
      (∃ v rest, s.inputs = .access (.write 1 v) :: rest ∧ v.getLsbD 4 = true) ∨
        ∃ a rest, s.inputs = .reset a :: rest)

/-! ### Bus reads (20_memory.md R64, R67) and STATUS (10_state.md R31) -/

/-- R64: what a host read returns at each of the 256 word indexes, and that it changes no state of the core. Where the
rule says `any` the value is unconstrained. That the value is recorded (log 4) and that an `any` counts one draw (log 2)
is the model's choice. -/
def Obligations.ReadByLocation : Prop :=
  ∀ (s : State) (index : BitVec 8) (rest : List Event), s.inputs = .access (.read index) :: rest →
    let s0 : State := { s with inputs := rest }
    let gives (x : Word) : Prop := step s = .next { s0 with reads := (index, x) :: s.reads }
    let any : Prop := ∃ x, step s = .next { s0 with reads := (index, x) :: s.reads, draws := s.draws + 1 }
    (index.toNat = 0 → gives 0) ∧
    (index.toNat = 1 → gives (statusWord s)) ∧
    (∀ j : Fin 4, index.toNat = 4 + j.val → gives (blockWord s.key j)) ∧
    (∀ j : Fin 4, index.toNat = 8 + j.val → gives (blockWord s.iv j)) ∧
    (∀ j : Fin 4, index.toNat = 12 + j.val → gives (blockWord s.din j)) ∧
    (∀ j : Fin 4, index.toNat = 16 + j.val → if s.pend = none then gives (blockWord s.st j) else any) ∧
    (∀ j : Fin 4, index.toNat = 20 + j.val → if s.pend = none then gives (blockWord s.chain j) else any) ∧
    (∀ i : Fin 44, index.toNat = 64 + i.val → if s.pend = none ∧ s.keyv = true then gives s.rk[i] else any) ∧
    (index.toNat = 2 ∨ index.toNat = 3 ∨ 24 ≤ index.toNat ∧ index.toNat < 64 ∨ 108 ≤ index.toNat → gives 0)

/-- R31, R32, R240: the bits of STATUS as it reads, and the codes of ERR. -/
def Obligations.StatusLayout : Prop :=
  ∀ s : State,
    (statusWord s).getLsbD 0 = s.pend.isSome ∧ (statusWord s).getLsbD 1 = s.done ∧
    (statusWord s).getLsbD 2 = s.keyv ∧ (statusWord s).getLsbD 3 = s.chv ∧ (statusWord s).getLsbD 4 = s.ovr ∧
    (statusWord s).extractLsb' 5 3 = 0 ∧ (statusWord s).extractLsb' 11 21 = 0 ∧
    (statusWord s).extractLsb' 8 3 = (match s.err with
      | .noError => 0
      | .invalidKeyLength => 1
      | .invalidBlockLength => 2
      | .illegalCommand => 3
      | .noKey => 4
      | .noChain => 5)

/-! ### Reset (70_reset_and_hazards.md R270, R271; 10_state.md R41) -/

/-- R41: the values of State.reset the spec gives. -/
def Obligations.ResetStateValues : Prop :=
  State.reset.key = .zero ∧ State.reset.iv = .zero ∧ State.reset.din = .zero ∧ State.reset.st = .zero ∧
    State.reset.chain = .zero ∧ statusWord State.reset = 0 ∧ State.reset.pend = none

/-- R270, R271, R41: from ANY state, one cycle with rst = 1 gives every register but RK its reset value and abandons a
pending command; a write presented in that cycle is ignored and a read returns some value. -/
def Obligations.ResetCycleFromAnyState : Prop :=
  ∀ (s : State) (a : Option Access) (rest : List Event), s.inputs = .reset a :: rest →
    ∃ t, step s = .next t ∧ t.key = .zero ∧ t.iv = .zero ∧ t.din = .zero ∧ t.st = .zero ∧ t.chain = .zero ∧
      t.done = false ∧ t.keyv = false ∧ t.chv = false ∧ t.ovr = false ∧ t.err = .noError ∧ t.pend = none ∧
      t.inputs = rest ∧
      (∀ index, a = some (.read index) → ∃ x, t.reads = (index, x) :: s.reads) ∧
      ((∀ index, a ≠ some (.read index)) → t.reads = s.reads)

/-! ### The commands: each completes, with its result and its frame -/

/-- R230: NOP completes in every state and changes nothing but PEND and DONE. -/
def Obligations.NopCompletes : Prop :=
  ∀ s : State, exec .nop s = .next { s with pend := none, done := true }

/-- R232: LDST completes in every state: ST takes DIN word for word, and nothing else changes. -/
def Obligations.LdstLoadsDin : Prop :=
  ∀ s : State, exec .ldst s = .next { s with st := s.din, pend := none, done := true }

/-- R211: CHINIT completes in every state: CHAIN takes IV, CHV is set, and nothing else changes. -/
def Obligations.ChinitTakesIv : Prop :=
  ∀ s : State, exec .chinit s = .next { s with chain := s.iv, chv := true, pend := none, done := true }

/-- R140, R145: KEYEXP completes in every state: RK is the expansion of KEY, word by word, KEYV is set, and nothing else
changes. -/
def Obligations.KeyexpExpandsKey : Prop :=
  ∀ s : State, ∃ t, exec .keyexp s = .next t ∧
    t = { s with rk := t.rk, keyv := true, pend := none, done := true } ∧
    t.rk[0] = s.key.w0 ∧ t.rk[1] = s.key.w1 ∧ t.rk[2] = s.key.w2 ∧ t.rk[3] = s.key.w3 ∧
    ∀ (i : Nat) (_ : 4 ≤ i) (_ : i < 44),
      t.rk[i] = if i % 4 = 0 then t.rk[i - 4] ^^^ subWord (rotWord t.rk[i - 1]) ^^^ rconWord (i / 4)
        else t.rk[i - 4] ^^^ t.rk[i - 1]

/-- R161 to R163: SUB and INVSUB complete in every state: each byte of ST is replaced through the ROM, and nothing else
changes. -/
def Obligations.SubstitutionCommandsMapEachByte : Prop :=
  (∀ s : State, ∃ t, exec .sub s = .next t ∧ t = { s with st := t.st, pend := none, done := true } ∧
    ∀ r c, cell t.st r c = sbox (cell s.st r c)) ∧
  ∀ s : State, ∃ t, exec .invsub s = .next t ∧ t = { s with st := t.st, pend := none, done := true } ∧
    ∀ r c, cell t.st r c = invSbox (cell s.st r c)

/-- R164 to R166: SHR and INVSHR complete in every state: row r of ST is rotated left, or right, by r columns, and
nothing else changes. -/
def Obligations.ShiftCommandsRotateRows : Prop :=
  (∀ s : State, ∃ t, exec .shr s = .next t ∧ t = { s with st := t.st, pend := none, done := true } ∧
    ∀ r c d : Fin 4, d.val = (c.val + r.val) % 4 → cell t.st r c = cell s.st r d) ∧
  ∀ s : State, ∃ t, exec .invshr s = .next t ∧ t = { s with st := t.st, pend := none, done := true } ∧
    ∀ r c d : Fin 4, d.val = (c.val + 4 - r.val) % 4 → cell t.st r c = cell s.st r d

/-- R167 to R169: MIX and INVMIX complete in every state: each column of ST is multiplied by the matrix, as R167 writes
it out, and nothing else changes. -/
def Obligations.MixCommandsMultiplyColumns : Prop :=
  (∀ s : State, ∃ t, exec .mix s = .next t ∧ t = { s with st := t.st, pend := none, done := true } ∧
    ∀ c,
      let a := cell s.st 0 c
      let b := cell s.st 1 c
      let d := cell s.st 2 c
      let e := cell s.st 3 c
      cell t.st 0 c = gmul 2 a ^^^ gmul 3 b ^^^ d ^^^ e ∧ cell t.st 1 c = a ^^^ gmul 2 b ^^^ gmul 3 d ^^^ e ∧
        cell t.st 2 c = a ^^^ b ^^^ gmul 2 d ^^^ gmul 3 e ∧ cell t.st 3 c = gmul 3 a ^^^ b ^^^ d ^^^ gmul 2 e) ∧
  ∀ s : State, ∃ t, exec .invmix s = .next t ∧ t = { s with st := t.st, pend := none, done := true } ∧
    ∀ c,
      let a := cell s.st 0 c
      let b := cell s.st 1 c
      let d := cell s.st 2 c
      let e := cell s.st 3 c
      cell t.st 0 c = gmul 14 a ^^^ gmul 11 b ^^^ gmul 13 d ^^^ gmul 9 e ∧
        cell t.st 1 c = gmul 9 a ^^^ gmul 14 b ^^^ gmul 11 d ^^^ gmul 13 e ∧
        cell t.st 2 c = gmul 13 a ^^^ gmul 9 b ^^^ gmul 14 d ^^^ gmul 11 e ∧
        cell t.st 3 c = gmul 11 a ^^^ gmul 13 b ^^^ gmul 9 d ^^^ gmul 14 e

/-- R170: ARK r, for r in 0..10 with KEYV = 1, completes: word c of ST is XORed with RK[4r + c], and nothing else
changes. -/
def Obligations.ArkAddsRoundKey : Prop :=
  ∀ (s : State) (r : BitVec 4) (hr : r.toNat ≤ 10), s.keyv = true →
    exec (.ark r) s = .next { s with
      st := ⟨s.st.w0 ^^^ s.rk[4 * r.toNat], s.st.w1 ^^^ s.rk[4 * r.toNat + 1], s.st.w2 ^^^ s.rk[4 * r.toNat + 2],
        s.st.w3 ^^^ s.rk[4 * r.toNat + 3]⟩,
      pend := none, done := true }

/-- R171: ARKC, with CHV = 1, completes: the words of ST are XORed with those of CHAIN, and nothing else changes. -/
def Obligations.ArkcAddsChain : Prop :=
  ∀ s : State, s.chv = true →
    exec .arkc s = .next { s with
      st := ⟨s.st.w0 ^^^ s.chain.w0, s.st.w1 ^^^ s.chain.w1, s.st.w2 ^^^ s.chain.w2, s.st.w3 ^^^ s.chain.w3⟩,
      pend := none, done := true }

/-- R212: ENC, with KEYV = CHV = 1, completes: ST and CHAIN take Cipher of DIN XOR CHAIN, and nothing else changes. -/
def Obligations.EncEncryptsAndChains : Prop :=
  ∀ s : State, s.keyv = true → s.chv = true →
    ∃ c, c = cipher (addRoundKey s.din s.chain) s.rk ∧
      exec .enc s = .next { s with st := c, chain := c, pend := none, done := true }

/-- R213: DEC, with KEYV = CHV = 1, completes: ST takes InvCipher of DIN, XOR the chain value held before, CHAIN takes
DIN, and nothing else changes. -/
def Obligations.DecDecryptsAndChains : Prop :=
  ∀ s : State, s.keyv = true → s.chv = true →
    exec .dec s = .next { s with
      st := addRoundKey (invCipher s.din s.rk) s.chain, chain := s.din, pend := none, done := true }

/-- R94, R240, R242, at the meanings (log 5): ARK 11..15 is refused with ILLEGAL_COMMAND; ENC, DEC and ARK without KEYV
with NO_KEY, before NO_CHAIN; ENC, DEC and ARKC without CHV with NO_CHAIN. None has any of its effect. -/
def Obligations.UnmetPreconditionsRefuse : Prop :=
  ∀ s : State,
    (∀ r : BitVec 4, 10 < r.toNat →
      exec (.ark r) s = .next { s with err := .illegalCommand, done := true, pend := none }) ∧
    (s.keyv = false →
      (∀ r : BitVec 4, r.toNat ≤ 10 → exec (.ark r) s = .next { s with err := .noKey, done := true, pend := none }) ∧
      exec .enc s = .next { s with err := .noKey, done := true, pend := none } ∧
      exec .dec s = .next { s with err := .noKey, done := true, pend := none }) ∧
    (s.chv = false → exec .arkc s = .next { s with err := .noChain, done := true, pend := none }) ∧
    (s.keyv = true → s.chv = false →
      exec .enc s = .next { s with err := .noChain, done := true, pend := none } ∧
      exec .dec s = .next { s with err := .noChain, done := true, pend := none })

/-! ### The step and the run -/

/-- R40, R73, and the model's convention of turns (log 1): a turn of the core runs the pending command; and a CMD write
of a well-formed command's word to an idle core, its checks passed, makes that command pending, so that the core's next
turn runs it. -/
def Obligations.StepRunsTheDecodedCommand : Prop :=
  (∀ (s : State) (i : Instr), s.pend = some i →
    (s.inputs = [] → step s = exec i s) ∧
    ∀ rest, s.inputs = .coreTurn :: rest → step s = exec i { s with inputs := rest }) ∧
  ∀ (s : State) (i : Instr) (v : Word) (rest : List Event), decode v = .command i → i.wf = true → s.pend = none →
    refusalCode i s = none → s.inputs = .access (.write 0 v) :: .coreTurn :: rest →
    ∃ t, step s = .next t ∧ t = acceptCommand i { s with inputs := .coreTurn :: rest } ∧
      step t = exec i { t with inputs := rest }

/-- R245, R248, R77: the core takes no traps and its bus returns no errors: every step answers a state. -/
def Obligations.EveryStepAnswersAState : Prop :=
  ∀ s : State, ∃ t, step s = .next t

/-- R41: the reset state meets the invariant. -/
def Obligations.ResetMeetsTheInvariant : Prop := Invariant State.reset

/-- R29, R33, R35, R43, R243, R245: every step keeps the invariant: KEYV = 1 only with a complete schedule in RK, a
pending command passes its checks, and DONE = 0 and ERR = 0 while one is pending. -/
def Obligations.EveryStepKeepsTheInvariant : Prop :=
  ∀ s t : State, Invariant s → step s = .next t → Invariant t

/-- R40, R283, R291: one step after the events of a run are over, the core is idle, no command pending. A command need not
have completed for that: a reset event in the queue abandons the one pending at it (R270). That the core has the turn when
the queue is empty is the model's reading of weak fairness (log 1, log 8). -/
def Obligations.EveryRunEndsIdle : Prop :=
  ∀ s : State, ∃ t, runSteps (s.inputs.length + 1) s = .next t ∧ t.inputs = [] ∧ t.pend = none

/-- R66, R73: whatever accesses the host makes while a command is pending, the command completes as if it had made none:
every register a command reads or writes ends the same. -/
def Obligations.PendingCommandSeesNoAccess : Prop :=
  ∀ (s t : State) (i : Instr) (as : List Access) (rest : List Event), s.pend = some i →
    s.inputs = as.map .access ++ .coreTurn :: rest → exec i s = .next t →
    ∃ u, runSteps (as.length + 1) s = .next u ∧ sameOperands t u ∧ u.inputs = rest

/-- R100, R101, R243, R281, R40: `run C` over the bus. For an accepted command: with any number of polls before the
completion the run ends; and every run that ends, whatever turns the agents took, has left the machine in the state that
completing C gives, and its last poll has read that state's STATUS. For a refused word: the `wait` ends at its first
read, and every run that ends leaves the refusal's state with that one read. -/
def Obligations.RunCommandOverTheBus : Prop :=
  (∀ (s : State) (i : Instr), s.pend = none → refusalCode i s = none →
    (∀ polls : Nat, ∃ u,
      runProgram (.host :: (List.replicate polls .host ++ [.core, .host])) (run (encode i)) s = .next ([], u)) ∧
    ∀ (turns : List Agent) (u : State), runProgram turns (run (encode i)) s = .next ([], u) →
      ∃ t, exec i (acceptCommand i s) = .next t ∧ sameMachine t u ∧ u.inputs = s.inputs ∧
        u.reads.head? = some (1, statusWord u)) ∧
  ∀ (s : State) (v : Word), s.pend = none → (presentCommand v s).pend = none →
    let t := recordRead 1 (statusWord (presentCommand v s)) (presentCommand v s)
    runProgram [.host, .host] (run v) s = .next ([], t) ∧
      ∀ (turns : List Agent) (u : State), runProgram turns (run v) s = .next ([], u) → u = t

/-- R101: `loadkey`, `loadiv` and `loaddin` on an idle core write the block and nothing else. -/
def Obligations.LoadBlockWritesTheRegister : Prop :=
  ∀ (s : State) (b : Block), s.pend = none →
    runProgram (List.replicate 4 .host) (loadkey b) s = .next ([], { s with key := b }) ∧
    runProgram (List.replicate 4 .host) (loadiv b) s = .next ([], { s with iv := b }) ∧
    runProgram (List.replicate 4 .host) (loaddin b) s = .next ([], { s with din := b })

/-! ### Whole-machine rules: who writes what (10_state.md R22 to R30) -/

/-- R22, R24, R25: KEY, IV and DIN change only by a host write to them while BUSY = 0, or by reset: no command writes
them. -/
def Obligations.OperandRegistersChangeOnlyByHostWrites : Prop :=
  ∀ s t : State, step s = .next t → (∀ a rest, s.inputs ≠ .reset a :: rest) →
    (t.key ≠ s.key → s.pend = none ∧
      ∃ index v rest, s.inputs = .access (.write index v) :: rest ∧ 4 ≤ index.toNat ∧ index.toNat < 8) ∧
    (t.iv ≠ s.iv → s.pend = none ∧
      ∃ index v rest, s.inputs = .access (.write index v) :: rest ∧ 8 ≤ index.toNat ∧ index.toNat < 12) ∧
    (t.din ≠ s.din → s.pend = none ∧
      ∃ index v rest, s.inputs = .access (.write index v) :: rest ∧ 12 ≤ index.toNat ∧ index.toNat < 16)

/-- R26, R27, R28: ST, CHAIN and RK change only by reset or in the completion of a command listed for them. -/
def Obligations.ResultRegistersChangeOnlyByTheirCommands : Prop :=
  ∀ s t : State, step s = .next t → (∀ a rest, s.inputs ≠ .reset a :: rest) →
    (t.st ≠ s.st → ∃ i, s.pend = some i ∧ t.pend = none ∧
      (i ∈ [.enc, .dec, .ldst, .sub, .invsub, .shr, .invshr, .mix, .invmix, .arkc] ∨ ∃ r, i = .ark r)) ∧
    (t.chain ≠ s.chain → ∃ i, s.pend = some i ∧ t.pend = none ∧ i ∈ [.chinit, .enc, .dec]) ∧
    (t.rk ≠ s.rk → s.pend = some .keyexp ∧ t.pend = none)

/-- R29, R30: KEYV is set only by the completion of a KEYEXP and cleared only by the acceptance of one or by reset; CHV
is set only by the completion of a CHINIT and cleared only by reset. -/
def Obligations.ValidityBitsChangeOnlyByTheirCommands : Prop :=
  ∀ s t : State, step s = .next t →
    (s.keyv = false → t.keyv = true → s.pend = some .keyexp ∧ t.pend = none) ∧
    (s.keyv = true → t.keyv = false → s.pend = none ∧ t.pend = some .keyexp ∨ ∃ a rest, s.inputs = .reset a :: rest) ∧
    (s.chv = false → t.chv = true → s.pend = some .chinit ∧ t.pend = none) ∧
    (s.chv = true → t.chv = false → ∃ a rest, s.inputs = .reset a :: rest)

/-- R28, R64, R67: while KEYV = 0, RK is unused. Of two states that differ only in RK and in what has been read, the
first one in the invariant: every read that is exact in one is exact in the other, with the same value; a step leaves
them differing only so; and where the step sets KEYV, it makes RK equal. What a read that draws shows is a free value
(log 2) and is left out. -/
def Obligations.ScheduleUnusedWithoutKeyv : Prop :=
  ∀ s t : State, Invariant s → s.keyv = false → sameButSchedule s t →
    (∀ l : Location, readExact s l = readExact t l) ∧
    ∃ s' t', step s = .next s' ∧ step t = .next t' ∧ sameButSchedule s' t' ∧ (s'.keyv = true → s'.rk = t'.rk)

/-! ### Arithmetic, ROMs and words (40_gf_and_sbox.md; 20_memory.md R61) -/

/-- R121, R127: gmul is commutative and associative, distributes over `^`, has the identity 0x01, gives 0 for 0x00, and
every nonzero byte has an inverse under it. -/
def Obligations.GmulIsAFieldProduct : Prop :=
  (∀ a b : Byte, gmul a b = gmul b a) ∧ (∀ a b c : Byte, gmul (gmul a b) c = gmul a (gmul b c)) ∧
    (∀ a b c : Byte, gmul a (b ^^^ c) = gmul a b ^^^ gmul a c) ∧ (∀ a : Byte, gmul a 0x01 = a) ∧
    (∀ a : Byte, gmul a 0x00 = 0) ∧ ∀ a : Byte, a ≠ 0 → ∃ b : Byte, gmul a b = 0x01

/-- R123: the products by the six mixing constants as xtime and XOR. -/
def Obligations.MixingProductsByXtime : Prop :=
  ∀ b : Byte,
    gmul b 0x02 = xtime b ∧ gmul b 0x03 = xtime b ^^^ b ∧ gmul b 0x09 = xtime (xtime (xtime b)) ^^^ b ∧
      gmul b 0x0b = xtime (xtime (xtime b)) ^^^ xtime b ^^^ b ∧
      gmul b 0x0d = xtime (xtime (xtime b)) ^^^ xtime (xtime b) ^^^ b ∧
      gmul b 0x0e = xtime (xtime (xtime b)) ^^^ xtime (xtime b) ^^^ xtime b

/-- R127: the ROMs invert each other; sbox is the affine map of the inverse under gmul; it has no fixed and no anti-fixed
point. -/
def Obligations.SboxIsTheAffineInverse : Prop :=
  ∀ x : Byte, invSbox (sbox x) = x ∧ sbox (invSbox x) = x ∧ sbox x ≠ x ∧ sbox x ≠ x ^^^ 0xff ∧
    ∃ y : Byte, (if x = 0 then y = 0 else gmul x y = 1) ∧
      sbox x = y ^^^ y.rotateLeft 1 ^^^ y.rotateLeft 2 ^^^ y.rotateLeft 3 ^^^ y.rotateLeft 4 ^^^ 0x63

/-- R131: RotWord is a left rotation by 8 bits. -/
def Obligations.RotWordRotatesLeft : Prop :=
  ∀ w : Word, rotWord w = w <<< 8 ||| w >>> 24 ∧
    ∀ b0 b1 b2 b3 : Byte, rotWord (b0 ++ b1 ++ b2 ++ b3) = b1 ++ b2 ++ b3 ++ b0

/-- R61, R12: byte 4j + k of a register's block is bits [31-8k:24-8k] of word j, and the cell at row r, column c is byte
4c + r. -/
def Obligations.BytesOfARegister : Prop :=
  ∀ (b : Block) (i : Fin 16) (j k : Fin 4), i.val = 4 * j.val + k.val →
    blockByte b i = (blockWord b j).extractLsb' (24 - 8 * k.val) 8 ∧ cell b k j = blockByte b i

/-! ### Laws of the round operations and of the cipher (42, 43, 44) -/

/-- R172: the source's identities. -/
def Obligations.RoundOperationsInvert : Prop :=
  ∀ s k : Block, addRoundKey (addRoundKey s k) k = s ∧ invSubBytes (subBytes s) = s ∧ subBytes (invSubBytes s) = s ∧
    invShiftRows (shiftRows s) = s ∧ shiftRows (invShiftRows s) = s ∧ invMixColumns (mixColumns s) = s ∧
    mixColumns (invMixColumns s) = s

/-- R167, R173: MixColumns and InvMixColumns are linear, and MixColumns does not commute with AddRoundKey. -/
def Obligations.MixColumnsIsLinear : Prop :=
  (∀ s t : Block, mixColumns (addRoundKey s t) = addRoundKey (mixColumns s) (mixColumns t) ∧
    invMixColumns (addRoundKey s t) = addRoundKey (invMixColumns s) (invMixColumns t)) ∧
  mixColumns .zero = .zero ∧ invMixColumns .zero = .zero ∧
  ∃ s k : Block, mixColumns (addRoundKey s k) ≠ addRoundKey (mixColumns s) k

/-- R174: substitution and row rotation commute. -/
def Obligations.SubstitutionCommutesWithRotation : Prop :=
  ∀ s : Block, shiftRows (subBytes s) = subBytes (shiftRows s) ∧
    invShiftRows (invSubBytes s) = invSubBytes (invShiftRows s)

/-- R190: the stages of Cipher, in order. -/
def Obligations.CipherStages : Prop :=
  ∀ (s : Block) (rk : Schedule),
    let stage (r : Fin 11) (x : Block) : Block :=
      addRoundKey (mixColumns (shiftRows (subBytes x))) (roundKey rk r)
    cipher s rk = addRoundKey (shiftRows (subBytes (stage 9 (stage 8 (stage 7 (stage 6 (stage 5 (stage 4 (stage 3
      (stage 2 (stage 1 (addRoundKey s (roundKey rk 0))))))))))))) (roundKey rk 10)

/-- R192: the stages of InvCipher, in order. -/
def Obligations.InvCipherStages : Prop :=
  ∀ (s : Block) (rk : Schedule),
    let stage (r : Fin 11) (x : Block) : Block :=
      invMixColumns (addRoundKey (invSubBytes (invShiftRows x)) (roundKey rk r))
    invCipher s rk = addRoundKey (invSubBytes (invShiftRows (stage 1 (stage 2 (stage 3 (stage 4 (stage 5 (stage 6
      (stage 7 (stage 8 (stage 9 (addRoundKey s (roundKey rk 10))))))))))))) (roundKey rk 0)

/-- R196: the known answer. -/
def Obligations.KnownAnswer : Prop :=
  cipher (blockOfHex 0x00112233445566778899aabbccddeeff) (expand (blockOfHex 0x000102030405060708090a0b0c0d0e0f)) =
    blockOfHex 0x69c4e0d86a7b0430d8cdb78070b4c55a

/-- R195: InvCipher and Cipher undo each other, for every State and every schedule. -/
def Obligations.InvCipherInvertsCipher : Prop :=
  ∀ (s : Block) (rk : Schedule), invCipher (cipher s rk) rk = s ∧ cipher (invCipher s rk) rk = s

/-- R218: decrypting an encrypted stream gives the stream back, for every key, IV and list of blocks. -/
def Obligations.StreamRoundTrip : Prop :=
  ∀ (key iv : Block) (blocks : List Block), decryptStream key iv (encryptStream key iv blocks) = blocks

/-- R214, R210: ENC, once for each block written to DIN, leaves in DOUT the blocks C_1, ..., C_n of the stream, and the
last of them in CHAIN; DEC the blocks P_1, ..., P_n, and the last ciphertext block in CHAIN. -/
def Obligations.CommandsComputeTheStream : Prop :=
  ∀ (s : State) (blocks : List Block), s.keyv = true → s.chv = true →
    (∃ t, execStream .enc blocks s = some (encryptBlocks s.rk s.chain blocks, t) ∧
      t.chain = (encryptBlocks s.rk s.chain blocks).getLastD s.chain) ∧
    ∃ t, execStream .dec blocks s = some (decryptBlocks s.rk s.chain blocks, t) ∧ t.chain = blocks.getLastD s.chain

/-- R216: a stream suspended after some blocks and resumed gives the blocks of the unbroken stream. Whatever CHAIN holds,
CHINIT with the saved chain value `c` in IV puts `c` there, and ENC (DEC) of the blocks to come then gives the blocks of
the stream that goes on from `c`; KEYEXP of the stream's key first, where the key has changed in between; and the blocks
of a stream split anywhere are those of its two parts, the second begun from the chain value the first leaves. -/
def Obligations.ResumedStreamIsUnbroken : Prop :=
  (∀ (s : State) (c : Block), ∃ t, exec .chinit { s with iv := c } = .next t ∧ t.chain = c ∧ t.chv = true ∧
    t.rk = s.rk ∧ t.keyv = s.keyv ∧
    (s.keyv = true → ∀ ys : List Block,
      (∃ u, execStream .enc ys t = some (encryptBlocks s.rk c ys, u)) ∧
        ∃ u, execStream .dec ys t = some (decryptBlocks s.rk c ys, u))) ∧
  (∀ (s : State) (key c : Block), ∃ t u, exec .keyexp { s with key := key } = .next t ∧
    exec .chinit { t with iv := c } = .next u ∧
    ∀ ys : List Block,
      (∃ v, execStream .enc ys u = some (encryptStream key c ys, v)) ∧
        ∃ v, execStream .dec ys u = some (decryptStream key c ys, v)) ∧
  ∀ (rk : Schedule) (c : Block) (xs ys : List Block),
    encryptBlocks rk c (xs ++ ys) =
      encryptBlocks rk c xs ++ encryptBlocks rk ((encryptBlocks rk c xs).getLastD c) ys ∧
    decryptBlocks rk c (xs ++ ys) = decryptBlocks rk c xs ++ decryptBlocks rk (xs.getLastD c) ys

/-- R217: with CHAIN = 0, ENC computes Cipher and DEC computes InvCipher. -/
def Obligations.ZeroChainIsPlainCipher : Prop :=
  ∀ s : State, s.keyv = true → s.chv = true → s.chain = .zero →
    (∃ t, exec .enc s = .next t ∧ t.st = cipher s.din s.rk) ∧ ∃ t, exec .dec s = .next t ∧ t.st = invCipher s.din s.rk

/-- R219: another IV changes C_1; a wrong IV on decryption changes P_1 by exactly the difference of the IVs, and no later
block. -/
def Obligations.IvSensitivity : Prop :=
  ∀ (key iv iv' b : Block) (bs : List Block), iv ≠ iv' →
    (encryptStream key iv (b :: bs)).head? ≠ (encryptStream key iv' (b :: bs)).head? ∧
    ∃ p ps, decryptStream key iv (b :: bs) = p :: ps ∧
      decryptStream key iv' (b :: bs) = addRoundKey p (addRoundKey iv iv') :: ps

/-- R232: the primitive commands, in the order of Cipher, leave in ST what ENC computes with CHAIN = 0, and leave CHAIN
as it was. -/
def Obligations.PrimitivesComputeCipher : Prop :=
  ∀ s : State, s.keyv = true →
    ∃ t, execAll ([.ldst, .ark 0] ++
        [1, 2, 3, 4, 5, 6, 7, 8, 9].flatMap (fun r => [.sub, .shr, .mix, .ark r]) ++ [.sub, .shr, .ark 10]) s =
      .next t ∧ t.st = cipher s.din s.rk ∧ t.chain = s.chain

/-! ### The platform's parameters (20_memory.md R69, R75) -/

/-- R60, R69, R75: the four byte addresses of a word of the window, at CORE_BASE, reach that word, and an address outside
the 1 KiB window reaches none. -/
def Obligations.WindowAddresses : Prop :=
  Config.coreBase % 1024 = 0 ∧
    (∀ (index : BitVec 8) (low : Nat), low < 4 →
      systemIndex (Config.coreBase + 4 * index.toNat + low) = some index) ∧
    ∀ address : Nat, address < Config.coreBase ∨ Config.coreBase + 1024 ≤ address → systemIndex address = none
end

