-- ==== Sys2Proof/Laws/State.lean ====
section
/-!
SUPPORT. One lemma per field for each shared update of the state, so that no proof unfolds a record update.
-/

namespace Sys2Proof.Machine

/-! ### raiseCmdError -/

@[simp] theorem raiseCmdError_key (code : ErrCode) (s : State) : (raiseCmdError code s).key = s.key := rfl
@[simp] theorem raiseCmdError_iv (code : ErrCode) (s : State) : (raiseCmdError code s).iv = s.iv := rfl
@[simp] theorem raiseCmdError_din (code : ErrCode) (s : State) : (raiseCmdError code s).din = s.din := rfl
@[simp] theorem raiseCmdError_st (code : ErrCode) (s : State) : (raiseCmdError code s).st = s.st := rfl
@[simp] theorem raiseCmdError_chain (code : ErrCode) (s : State) : (raiseCmdError code s).chain = s.chain := rfl
@[simp] theorem raiseCmdError_rk (code : ErrCode) (s : State) : (raiseCmdError code s).rk = s.rk := rfl
@[simp] theorem raiseCmdError_done (code : ErrCode) (s : State) : (raiseCmdError code s).done = true := rfl
@[simp] theorem raiseCmdError_keyv (code : ErrCode) (s : State) : (raiseCmdError code s).keyv = s.keyv := rfl
@[simp] theorem raiseCmdError_chv (code : ErrCode) (s : State) : (raiseCmdError code s).chv = s.chv := rfl
@[simp] theorem raiseCmdError_ovr (code : ErrCode) (s : State) : (raiseCmdError code s).ovr = s.ovr := rfl
@[simp] theorem raiseCmdError_err (code : ErrCode) (s : State) : (raiseCmdError code s).err = code := rfl
@[simp] theorem raiseCmdError_pend (code : ErrCode) (s : State) : (raiseCmdError code s).pend = none := rfl
@[simp] theorem raiseCmdError_inputs (code : ErrCode) (s : State) : (raiseCmdError code s).inputs = s.inputs := rfl
@[simp] theorem raiseCmdError_reads (code : ErrCode) (s : State) : (raiseCmdError code s).reads = s.reads := rfl
@[simp] theorem raiseCmdError_draws (code : ErrCode) (s : State) : (raiseCmdError code s).draws = s.draws := rfl

/-! ### acceptCommand -/

@[simp] theorem acceptCommand_key (i : Instr) (s : State) : (acceptCommand i s).key = s.key := rfl
@[simp] theorem acceptCommand_iv (i : Instr) (s : State) : (acceptCommand i s).iv = s.iv := rfl
@[simp] theorem acceptCommand_din (i : Instr) (s : State) : (acceptCommand i s).din = s.din := rfl
@[simp] theorem acceptCommand_st (i : Instr) (s : State) : (acceptCommand i s).st = s.st := rfl
@[simp] theorem acceptCommand_chain (i : Instr) (s : State) : (acceptCommand i s).chain = s.chain := rfl
@[simp] theorem acceptCommand_rk (i : Instr) (s : State) : (acceptCommand i s).rk = s.rk := rfl
@[simp] theorem acceptCommand_done (i : Instr) (s : State) : (acceptCommand i s).done = false := rfl
@[simp] theorem acceptCommand_keyv (i : Instr) (s : State) : (acceptCommand i s).keyv = if i = .keyexp then false else s.keyv := rfl
@[simp] theorem acceptCommand_chv (i : Instr) (s : State) : (acceptCommand i s).chv = s.chv := rfl
@[simp] theorem acceptCommand_ovr (i : Instr) (s : State) : (acceptCommand i s).ovr = s.ovr := rfl
@[simp] theorem acceptCommand_err (i : Instr) (s : State) : (acceptCommand i s).err = .noError := rfl
@[simp] theorem acceptCommand_pend (i : Instr) (s : State) : (acceptCommand i s).pend = some i := rfl
@[simp] theorem acceptCommand_inputs (i : Instr) (s : State) : (acceptCommand i s).inputs = s.inputs := rfl
@[simp] theorem acceptCommand_reads (i : Instr) (s : State) : (acceptCommand i s).reads = s.reads := rfl
@[simp] theorem acceptCommand_draws (i : Instr) (s : State) : (acceptCommand i s).draws = s.draws := rfl

/-! ### finishCommand -/

@[simp] theorem finishCommand_key (s : State) : (finishCommand s).key = s.key := rfl
@[simp] theorem finishCommand_iv (s : State) : (finishCommand s).iv = s.iv := rfl
@[simp] theorem finishCommand_din (s : State) : (finishCommand s).din = s.din := rfl
@[simp] theorem finishCommand_st (s : State) : (finishCommand s).st = s.st := rfl
@[simp] theorem finishCommand_chain (s : State) : (finishCommand s).chain = s.chain := rfl
@[simp] theorem finishCommand_rk (s : State) : (finishCommand s).rk = s.rk := rfl
@[simp] theorem finishCommand_done (s : State) : (finishCommand s).done = true := rfl
@[simp] theorem finishCommand_keyv (s : State) : (finishCommand s).keyv = s.keyv := rfl
@[simp] theorem finishCommand_chv (s : State) : (finishCommand s).chv = s.chv := rfl
@[simp] theorem finishCommand_ovr (s : State) : (finishCommand s).ovr = s.ovr := rfl
@[simp] theorem finishCommand_err (s : State) : (finishCommand s).err = s.err := rfl
@[simp] theorem finishCommand_pend (s : State) : (finishCommand s).pend = none := rfl
@[simp] theorem finishCommand_inputs (s : State) : (finishCommand s).inputs = s.inputs := rfl
@[simp] theorem finishCommand_reads (s : State) : (finishCommand s).reads = s.reads := rfl
@[simp] theorem finishCommand_draws (s : State) : (finishCommand s).draws = s.draws := rfl

/-! ### recordRead -/

@[simp] theorem recordRead_key (a : BitVec 8) (v : Word) (s : State) : (recordRead a v s).key = s.key := rfl
@[simp] theorem recordRead_iv (a : BitVec 8) (v : Word) (s : State) : (recordRead a v s).iv = s.iv := rfl
@[simp] theorem recordRead_din (a : BitVec 8) (v : Word) (s : State) : (recordRead a v s).din = s.din := rfl
@[simp] theorem recordRead_st (a : BitVec 8) (v : Word) (s : State) : (recordRead a v s).st = s.st := rfl
@[simp] theorem recordRead_chain (a : BitVec 8) (v : Word) (s : State) : (recordRead a v s).chain = s.chain := rfl
@[simp] theorem recordRead_rk (a : BitVec 8) (v : Word) (s : State) : (recordRead a v s).rk = s.rk := rfl
@[simp] theorem recordRead_done (a : BitVec 8) (v : Word) (s : State) : (recordRead a v s).done = s.done := rfl
@[simp] theorem recordRead_keyv (a : BitVec 8) (v : Word) (s : State) : (recordRead a v s).keyv = s.keyv := rfl
@[simp] theorem recordRead_chv (a : BitVec 8) (v : Word) (s : State) : (recordRead a v s).chv = s.chv := rfl
@[simp] theorem recordRead_ovr (a : BitVec 8) (v : Word) (s : State) : (recordRead a v s).ovr = s.ovr := rfl
@[simp] theorem recordRead_err (a : BitVec 8) (v : Word) (s : State) : (recordRead a v s).err = s.err := rfl
@[simp] theorem recordRead_pend (a : BitVec 8) (v : Word) (s : State) : (recordRead a v s).pend = s.pend := rfl
@[simp] theorem recordRead_inputs (a : BitVec 8) (v : Word) (s : State) : (recordRead a v s).inputs = s.inputs := rfl
@[simp] theorem recordRead_reads (a : BitVec 8) (v : Word) (s : State) : (recordRead a v s).reads = (a, v) :: s.reads := rfl
@[simp] theorem recordRead_draws (a : BitVec 8) (v : Word) (s : State) : (recordRead a v s).draws = s.draws := rfl

/-! ### drawRead -/

@[simp] theorem drawRead_key (a : BitVec 8) (s : State) : (drawRead a s).key = s.key := rfl
@[simp] theorem drawRead_iv (a : BitVec 8) (s : State) : (drawRead a s).iv = s.iv := rfl
@[simp] theorem drawRead_din (a : BitVec 8) (s : State) : (drawRead a s).din = s.din := rfl
@[simp] theorem drawRead_st (a : BitVec 8) (s : State) : (drawRead a s).st = s.st := rfl
@[simp] theorem drawRead_chain (a : BitVec 8) (s : State) : (drawRead a s).chain = s.chain := rfl
@[simp] theorem drawRead_rk (a : BitVec 8) (s : State) : (drawRead a s).rk = s.rk := rfl
@[simp] theorem drawRead_done (a : BitVec 8) (s : State) : (drawRead a s).done = s.done := rfl
@[simp] theorem drawRead_keyv (a : BitVec 8) (s : State) : (drawRead a s).keyv = s.keyv := rfl
@[simp] theorem drawRead_chv (a : BitVec 8) (s : State) : (drawRead a s).chv = s.chv := rfl
@[simp] theorem drawRead_ovr (a : BitVec 8) (s : State) : (drawRead a s).ovr = s.ovr := rfl
@[simp] theorem drawRead_err (a : BitVec 8) (s : State) : (drawRead a s).err = s.err := rfl
@[simp] theorem drawRead_pend (a : BitVec 8) (s : State) : (drawRead a s).pend = s.pend := rfl
@[simp] theorem drawRead_inputs (a : BitVec 8) (s : State) : (drawRead a s).inputs = s.inputs := rfl
@[simp] theorem drawRead_reads (a : BitVec 8) (s : State) : (drawRead a s).reads = (a, Config.anyRead s.draws a (heldWords s)) :: s.reads := rfl
@[simp] theorem drawRead_draws (a : BitVec 8) (s : State) : (drawRead a s).draws = s.draws + 1 := rfl

/-! ### resetRegisters -/

@[simp] theorem resetRegisters_key (s : State) : (resetRegisters s).key = .zero := rfl
@[simp] theorem resetRegisters_iv (s : State) : (resetRegisters s).iv = .zero := rfl
@[simp] theorem resetRegisters_din (s : State) : (resetRegisters s).din = .zero := rfl
@[simp] theorem resetRegisters_st (s : State) : (resetRegisters s).st = .zero := rfl
@[simp] theorem resetRegisters_chain (s : State) : (resetRegisters s).chain = .zero := rfl
@[simp] theorem resetRegisters_rk (s : State) : (resetRegisters s).rk = Vector.ofFn fun i => Config.rkAfterReset s.draws i.val (heldWords s) := rfl
@[simp] theorem resetRegisters_done (s : State) : (resetRegisters s).done = false := rfl
@[simp] theorem resetRegisters_keyv (s : State) : (resetRegisters s).keyv = false := rfl
@[simp] theorem resetRegisters_chv (s : State) : (resetRegisters s).chv = false := rfl
@[simp] theorem resetRegisters_ovr (s : State) : (resetRegisters s).ovr = false := rfl
@[simp] theorem resetRegisters_err (s : State) : (resetRegisters s).err = .noError := rfl
@[simp] theorem resetRegisters_pend (s : State) : (resetRegisters s).pend = none := rfl
@[simp] theorem resetRegisters_inputs (s : State) : (resetRegisters s).inputs = s.inputs := rfl
@[simp] theorem resetRegisters_reads (s : State) : (resetRegisters s).reads = s.reads := rfl
@[simp] theorem resetRegisters_draws (s : State) : (resetRegisters s).draws = s.draws + 1 := rfl

end Sys2Proof.Machine
end

