-- ==== Sys2Proof/Laws/Commands.lean ====
section
/-!
SUPPORT. What a command can do: the shared operations of Machine/Ops.lean said once, and `exec` as one completion with
one effect, so that a proof over all commands unfolds no meaning.
-/

namespace Sys2Proof.Machine

/-! ### Completing a command (R40) -/

theorem completeCommand_runs {i : Instr} {f : State → State} {s : State} (h : refusalCode i s = none) :
    completeCommand i f s = .next (finishCommand (f s)) := by
  simp [completeCommand, h]

theorem completeCommand_refused {i : Instr} {f : State → State} {s : State} {code : ErrCode}
    (h : refusalCode i s = some code) : completeCommand i f s = .next (raiseCmdError code s) := by
  simp [completeCommand, h]

/-- Everything a completion can do: refuse, with no effect, or finish its effect. -/
theorem completeCommand_cases {i : Instr} {f : State → State} {s t : State} (h : completeCommand i f s = .next t) :
    (∃ code, refusalCode i s = some code ∧ t = raiseCmdError code s) ∨
      (refusalCode i s = none ∧ t = finishCommand (f s)) := by
  cases hc : refusalCode i s with
  | some code =>
    rw [completeCommand_refused hc] at h
    exact .inl ⟨code, rfl, by cases h; rfl⟩
  | none =>
    rw [completeCommand_runs hc] at h
    exact .inr ⟨rfl, by cases h; rfl⟩

/-! ### Presenting a word (R242) -/

/-- Everything a CMD write to an idle core can do: a refusal, or an acceptance after every check passed. -/
theorem presentCommand_cases (v : Word) (s : State) :
    (∃ code, code ≠ .noError ∧ presentCommand v s = raiseCmdError code s) ∨
      (∃ i, decode v = .command i ∧ refusalCode i s = none ∧ presentCommand v s = acceptCommand i s) := by
  cases hd : decode v with
  | reject e => exact .inl ⟨rejectCode e, by cases e <;> simp [rejectCode], by simp [presentCommand, hd]⟩
  | command i =>
    cases hc : refusalCode i s with
    | none => exact .inr ⟨i, rfl, hc, by simp [presentCommand, hd, hc]⟩
    | some code =>
      refine .inl ⟨code, ?_, by simp [presentCommand, hd, hc]⟩
      rintro rfl
      simp only [refusalCode] at hc
      grind

/-! ### The checks (R94, R242) -/

/-- The checks read only the command, KEYV and CHV (R242). -/
theorem refusalCode_congr (i : Instr) {s t : State} (hk : s.keyv = t.keyv) (hc : s.chv = t.chv) :
    refusalCode i s = refusalCode i t := by
  simp [refusalCode, hk, hc]

/-- Acceptance of a command that passes its checks leaves them passing: KEYEXP needs no KEYV. -/
theorem refusalCode_acceptCommand (i : Instr) (s : State) : refusalCode i (acceptCommand i s) = refusalCode i s := by
  cases i <;> rfl

/-- The decoder gives only commands whose round-key number is legal (R94). -/
theorem roundKeyLegal_of_decode {v : Word} {i : Instr} (h : decode v = .command i) :
    roundKeyLegal i (rkField v) = true := by
  unfold decode at h
  grind

/-! ### The commands -/

/-- What each command's completion does before PEND and DONE are written: `Exec(cmd)` of its rule. -/
def effect (i : Instr) (s : State) : State :=
  match i with
  | .nop => s
  | .keyexp => { s with rk := expand s.key, keyv := true }
  | .chinit => { s with chain := s.iv, chv := true }
  | .enc => { s with st := encBlock s.din s.chain s.rk, chain := encBlock s.din s.chain s.rk }
  | .dec => { s with st := decBlock s.din s.chain s.rk, chain := s.din }
  | .ldst => { s with st := s.din }
  | .sub => { s with st := subBytes s.st }
  | .invsub => { s with st := invSubBytes s.st }
  | .shr => { s with st := shiftRows s.st }
  | .invshr => { s with st := invShiftRows s.st }
  | .mix => { s with st := mixColumns s.st }
  | .invmix => { s with st := invMixColumns s.st }
  | .ark r => { s with st := addRoundKey s.st (arkRoundKey s.rk r) }
  | .arkc => { s with st := addRoundKey s.st s.chain }

/-- Every meaning is the completion of its command's effect. -/
theorem exec_eq_completeCommand (i : Instr) (s : State) : exec i s = completeCommand i (effect i) s := by
  cases i <;> rfl

/-- No effect touches KEY, IV, DIN, DONE, OVR, ERR, PEND or the model's own fields. -/
theorem effect_frame (i : Instr) (s : State) :
    effect i s = { s with
      st := (effect i s).st, chain := (effect i s).chain, rk := (effect i s).rk,
      keyv := (effect i s).keyv, chv := (effect i s).chv } := by
  cases i <;> simp only [effect]

@[simp] theorem effect_key (i : Instr) (s : State) : (effect i s).key = s.key := by cases i <;> simp only [effect]
@[simp] theorem effect_iv (i : Instr) (s : State) : (effect i s).iv = s.iv := by cases i <;> simp only [effect]
@[simp] theorem effect_din (i : Instr) (s : State) : (effect i s).din = s.din := by cases i <;> simp only [effect]
@[simp] theorem effect_done (i : Instr) (s : State) : (effect i s).done = s.done := by cases i <;> simp only [effect]
@[simp] theorem effect_ovr (i : Instr) (s : State) : (effect i s).ovr = s.ovr := by cases i <;> simp only [effect]
@[simp] theorem effect_err (i : Instr) (s : State) : (effect i s).err = s.err := by cases i <;> simp only [effect]
@[simp] theorem effect_pend (i : Instr) (s : State) : (effect i s).pend = s.pend := by cases i <;> simp only [effect]
@[simp] theorem effect_inputs (i : Instr) (s : State) : (effect i s).inputs = s.inputs := by cases i <;> simp only [effect]
@[simp] theorem effect_reads (i : Instr) (s : State) : (effect i s).reads = s.reads := by cases i <;> simp only [effect]
@[simp] theorem effect_draws (i : Instr) (s : State) : (effect i s).draws = s.draws := by cases i <;> simp only [effect]

/-- Only KEYEXP writes RK (R28), and it sets KEYV with it. -/
theorem effect_schedule (i : Instr) (s : State) :
    ((effect i s).rk = s.rk ∧ (effect i s).keyv = s.keyv) ∨
      (i = .keyexp ∧ (effect i s).rk = expand s.key ∧ (effect i s).keyv = true) := by
  cases i <;> simp [effect]

/-- Only CHINIT changes CHV (R30), and it sets it. -/
theorem effect_chv (i : Instr) (s : State) :
    (effect i s).chv = s.chv ∨ (i = .chinit ∧ (effect i s).chv = true) := by
  cases i <;> simp [effect]

/-- Everything `exec` can do. -/
theorem exec_cases {i : Instr} {s t : State} (h : exec i s = .next t) :
    (∃ code, refusalCode i s = some code ∧ t = raiseCmdError code s) ∨
      (refusalCode i s = none ∧ t = finishCommand (effect i s)) :=
  completeCommand_cases ((exec_eq_completeCommand i s).symm.trans h)

end Sys2Proof.Machine
end

