-- ==== Sys2Proof/Laws/Bus.lean ====
section
/-!
SUPPORT. What one event can do: a read, a write, an access, a turn of the core, a reset cycle, and the step.
-/

namespace Sys2Proof.Machine

/-! ### Accesses -/

/-- R64: everything a read can do. It records one value and, where the value is `any`, counts one draw. -/
theorem busRead_cases (index : BitVec 8) (s : State) :
    (∃ v, readExact s (locate index) = some v ∧ busRead index s = recordRead index v s) ∨
      (readExact s (locate index) = none ∧ busRead index s = drawRead index s) := by
  unfold busRead
  split
  · exact .inl ⟨_, ‹_›, rfl⟩
  · exact .inr ⟨‹_›, rfl⟩

/-- R34: everything a STATUS write can do. -/
theorem writeStatus_eq (v : Word) (s : State) : writeStatus v s = { s with ovr := s.ovr && !v.getLsbD 4 } := by
  unfold writeStatus
  split <;> simp_all

/-- R66: everything a write while BUSY = 1 can do. -/
theorem writeBusy_eq (l : Location) (v : Word) (s : State) : writeBusy l v s = { s with ovr := (writeBusy l v s).ovr } := by
  cases l <;> simp [writeBusy, writeStatus_eq]

theorem busWrite_busy {s : State} (h : busy s = true) (index : BitVec 8) (v : Word) :
    busWrite index v s = writeBusy (locate index) v s := by
  simp [busWrite, h]

theorem busWrite_idle {s : State} (h : s.pend = none) (index : BitVec 8) (v : Word) :
    busWrite index v s = writeIdle (locate index) v s := by
  simp [busWrite, busy, h]

/-- While a command is pending, an access changes nothing but OVR and the model's own fields (R66, R67). -/
theorem performAccess_busy {s : State} (h : busy s = true) (a : Access) :
    performAccess a s = { s with
      ovr := (performAccess a s).ovr
      reads := (performAccess a s).reads
      draws := (performAccess a s).draws } := by
  cases a with
  | read index =>
    simp only [performAccess]
    obtain ⟨v, -, h'⟩ | ⟨-, h'⟩ := busRead_cases index s <;> rw [h'] <;> rfl
  | write index v =>
    simp only [performAccess, busWrite_busy h]
    rw [writeBusy_eq]

/-! ### The step -/

theorem step_nil {s : State} (h : s.inputs = []) : step s = coreTurn s := by
  simp [step, h]

theorem step_cons {s : State} {e : Event} {rest : List Event} (h : s.inputs = e :: rest) :
    step s = runEvent e { s with inputs := rest } := by
  simp [step, h]

theorem coreTurn_none {s : State} (h : s.pend = none) : coreTurn s = .next s := by
  simp [coreTurn, h]

theorem coreTurn_some {s : State} {i : Instr} (h : s.pend = some i) : coreTurn s = exec i s := by
  simp [coreTurn, h]

/-- Everything a turn of the core can do: nothing, when no command is pending; else the pending command is refused, or
its effect is finished. -/
theorem coreTurn_cases {s t : State} (h : coreTurn s = .next t) :
    (s.pend = none ∧ t = s) ∨
      (∃ i code, s.pend = some i ∧ refusalCode i s = some code ∧ t = raiseCmdError code s) ∨
      (∃ i, s.pend = some i ∧ refusalCode i s = none ∧ t = finishCommand (effect i s)) := by
  cases hp : s.pend with
  | none => rw [coreTurn_none hp] at h; exact .inl ⟨rfl, by cases h; rfl⟩
  | some i =>
    rw [coreTurn_some hp] at h
    obtain ⟨code, hc, ht⟩ | ⟨hc, ht⟩ := exec_cases h
    · exact .inr (.inl ⟨i, code, rfl, hc, ht⟩)
    · exact .inr (.inr ⟨i, rfl, hc, ht⟩)

/-- Everything a step can do: a turn of the core, an access, or a reset cycle. -/
theorem step_cases {s t : State} (h : step s = .next t) :
    (s.inputs = [] ∧ coreTurn s = .next t) ∨
      (∃ rest, s.inputs = .coreTurn :: rest ∧ coreTurn { s with inputs := rest } = .next t) ∨
      (∃ a rest, s.inputs = .access a :: rest ∧ t = performAccess a { s with inputs := rest }) ∨
      (∃ a rest, s.inputs = .reset a :: rest ∧ t = resetCycle a { s with inputs := rest }) := by
  cases hi : s.inputs with
  | nil => exact .inl ⟨rfl, step_nil hi ▸ h⟩
  | cons e rest =>
    rw [step_cons hi] at h
    cases e with
    | coreTurn => exact .inr (.inl ⟨rest, rfl, h⟩)
    | access a => exact .inr (.inr (.inl ⟨a, rest, rfl, by cases h; rfl⟩))
    | reset a => exact .inr (.inr (.inr ⟨a, rest, rfl, by cases h; rfl⟩))

/-! ### Reset (R270, R271) -/

/-- A reset cycle resets every register whatever access is presented in it, and the write of one is ignored. -/
theorem resetCycle_write (index : BitVec 8) (v : Word) (s : State) :
    resetCycle (some (.write index v)) s = resetRegisters s := rfl

theorem resetCycle_quiet (s : State) : resetCycle none s = resetRegisters s := rfl

theorem resetCycle_read (index : BitVec 8) (s : State) :
    resetCycle (some (.read index)) s = resetRegisters (drawRead index s) := rfl

end Sys2Proof.Machine
end

