-- ==== Sys2Proof/Laws/HostProgram.lean ====
section
/-!
SUPPORT. What a turn of a host program can do (30_encoding.md R100), and what a `wait` reads.
-/

namespace Sys2Proof.Machine

/-! ### One turn -/

/-- The core's turn of a run is `coreTurn`, and leaves the queue as it is. -/
theorem stepWith_coreTurn (s : State) : stepWith .coreTurn s = coreTurn s := rfl

/-- The host's turn of a run performs its access. -/
theorem stepWith_access (a : Access) (s : State) : stepWith (.access a) s = .next (performAccess a s) := rfl

theorem runProgram_core {s t : State} (h : coreTurn s = .next t) (turns : List Agent) (p : List HostStatement) :
    runProgram (.core :: turns) p s = runProgram turns p t := by
  simp [runProgram, stepWith_coreTurn, h]

/-- A turn of the core that has nothing pending passes. -/
theorem runProgram_core_idle {s : State} (h : s.pend = none) (turns : List Agent) (p : List HostStatement) :
    runProgram (.core :: turns) p s = runProgram turns p s :=
  runProgram_core (coreTurn_none h) turns p

theorem runProgram_host (c : HostStatement) (turns : List Agent) (rest : List HostStatement) (s : State) :
    runProgram (.host :: turns) (c :: rest) s =
      runProgram turns (remainingProgram c rest (performAccess (statementAccess c) s))
        (performAccess (statementAccess c) s) := by
  simp [runProgram, stepWith_access]

/-- Once a program is over and no command is pending, no turn changes anything. -/
theorem runProgram_over {s : State} (h : s.pend = none) (turns : List Agent) :
    runProgram turns [] s = .next ([], s) := by
  induction turns with
  | nil => rfl
  | cons a turns ih =>
    cases a with
    | core => rw [runProgram_core_idle h, ih]
    | host => exact ih

/-! ### The access of a `wait` -/

/-- A `wait` reads STATUS, whose value is always exact (R67). -/
theorem performAccess_wait (s : State) :
    performAccess (statementAccess .wait) s = recordRead 1 (statusWord s) s := rfl

/-- The host sees BUSY in bit 0 of STATUS (R31). -/
@[simp] theorem lastReadBit_statusWord (index : BitVec 8) (s t : State) :
    lastReadBit (recordRead index (statusWord s) t) = busy s := by
  show (statusWord s).getLsbD 0 = busy s
  rw [statusWord, BitVec.getLsbD_append]
  simp

/-- R100: a `wait` whose read finds BUSY = 1 goes on, and one whose read finds BUSY = 0 is over. -/
theorem runProgram_wait (turns : List Agent) (rest : List HostStatement) (s : State) :
    runProgram (.host :: turns) (.wait :: rest) s =
      runProgram turns (if busy s then .wait :: rest else rest) (recordRead 1 (statusWord s) s) := by
  rw [runProgram_host, performAccess_wait]
  simp [remainingProgram]

end Sys2Proof.Machine
end

