-- ==== Sys2Proof/Laws/Operands.lean ====
section
/-!
SUPPORT. The readings of an operand, each read back from what was built, and the round operations cell by cell.
-/

namespace Sys2Proof.Machine

/-! ### Bytes of a word (R11) -/

theorem getLsbD_wordOf (a b c d : Byte) (i : Nat) :
    (wordOf a b c d).getLsbD i =
      if i < 8 then d.getLsbD i else if i < 16 then c.getLsbD (i - 8) else
        if i < 24 then b.getLsbD (i - 16) else a.getLsbD (i - 24) := by
  simp only [wordOf, BitVec.getLsbD_append]
  grind

theorem getLsbD_byteOf (w : Word) (k : Fin 4) (i : Nat) (hi : i < 8) :
    (byteOf w k).getLsbD i = w.getLsbD (24 - 8 * k.val + i) := by
  simp [byteOf, hi]

theorem byteOf_wordOf (a b c d : Byte) (k : Fin 4) :
    byteOf (wordOf a b c d) k = match k with | 0 => a | 1 => b | 2 => c | 3 => d := by
  apply BitVec.eq_of_getLsbD_eq
  intro i hi
  rw [getLsbD_byteOf _ _ _ hi, getLsbD_wordOf]
  match k with
  | 0 => grind
  | 1 => grind
  | 2 => grind
  | 3 => grind

@[simp] theorem byteOf_wordOf_zero (a b c d : Byte) : byteOf (wordOf a b c d) 0 = a := byteOf_wordOf a b c d 0

@[simp] theorem byteOf_wordOf_one (a b c d : Byte) : byteOf (wordOf a b c d) 1 = b := byteOf_wordOf a b c d 1

@[simp] theorem byteOf_wordOf_two (a b c d : Byte) : byteOf (wordOf a b c d) 2 = c := byteOf_wordOf a b c d 2

@[simp] theorem byteOf_wordOf_three (a b c d : Byte) : byteOf (wordOf a b c d) 3 = d := byteOf_wordOf a b c d 3

/-- A word is its four bytes, the first in bits [31:24]. -/
@[simp] theorem wordOf_byteOf (w : Word) : wordOf (byteOf w 0) (byteOf w 1) (byteOf w 2) (byteOf w 3) = w := by
  apply BitVec.eq_of_getLsbD_eq
  intro i hi
  rw [getLsbD_wordOf]
  split
  · rw [getLsbD_byteOf _ _ _ ‹_›]; grind
  · split
    · rw [getLsbD_byteOf _ _ _ (by omega)]; grind
    · split
      · rw [getLsbD_byteOf _ _ _ (by omega)]; grind
      · rw [getLsbD_byteOf _ _ _ (by omega)]; grind

/-- Two words with the same bytes are the same. -/
theorem word_ext {v w : Word} (h : ∀ k, byteOf v k = byteOf w k) : v = w := by
  rw [← wordOf_byteOf v, ← wordOf_byteOf w, h 0, h 1, h 2, h 3]

/-! ### Cells of a State (R12) -/

/-- What was built from cells reads back cell by cell. -/
@[simp] theorem cell_ofCells (f : Fin 4 → Fin 4 → Byte) (r c : Fin 4) : cell (ofCells f) r c = f r c := by
  match c with
  | 0 | 1 | 2 | 3 => exact (byteOf_wordOf _ _ _ _ r).trans (match r with | 0 | 1 | 2 | 3 => rfl)

/-- Two States with the same cells are the same. -/
theorem block_ext {s t : Block} (h : ∀ r c, cell s r c = cell t r c) : s = t := by
  have word (c : Fin 4) : blockWord s c = blockWord t c := word_ext fun r => h r c
  cases s
  cases t
  simpa [blockWord] using And.intro (word 0) (And.intro (word 1) (And.intro (word 2) (word 3)))

/-- A State is built from its own cells. -/
@[simp] theorem ofCells_cell (s : Block) : ofCells (cell s) = s := block_ext fun r c => cell_ofCells _ r c

@[simp] theorem blockWord_setBlockWord (b : Block) (j k : Fin 4) (v : Word) :
    blockWord (setBlockWord b j v) k = if k = j then v else blockWord b k := by
  match j, k with
  | 0, 0 | 0, 1 | 0, 2 | 0, 3 | 1, 0 | 1, 1 | 1, 2 | 1, 3 => rfl
  | 2, 0 | 2, 1 | 2, 2 | 2, 3 | 3, 0 | 3, 1 | 3, 2 | 3, 3 => rfl

/-- Word `c` of round key `r` is `RK[4r + c]` (R143). -/
theorem blockWord_roundKey (rk : Schedule) (r : Fin 11) (c : Fin 4) :
    blockWord (roundKey rk r) c = rk[4 * r.val + c.val] := by
  match c with
  | 0 | 1 | 2 | 3 => rfl

/-! ### The round operations, cell by cell (R160, R161, R164, R167) -/

@[simp] theorem cell_addRoundKey (s k : Block) (r c : Fin 4) :
    cell (addRoundKey s k) r c = cell s r c ^^^ cell k r c := cell_ofCells _ r c

@[simp] theorem cell_subBytes (s : Block) (r c : Fin 4) : cell (subBytes s) r c = sbox (cell s r c) :=
  cell_ofCells _ r c

@[simp] theorem cell_invSubBytes (s : Block) (r c : Fin 4) : cell (invSubBytes s) r c = invSbox (cell s r c) :=
  cell_ofCells _ r c

@[simp] theorem cell_shiftRows (s : Block) (r c : Fin 4) : cell (shiftRows s) r c = cell s r (c + r) :=
  cell_ofCells _ r c

@[simp] theorem cell_invShiftRows (s : Block) (r c : Fin 4) : cell (invShiftRows s) r c = cell s r (c - r) :=
  cell_ofCells _ r c

@[simp] theorem cell_mixColumns (s : Block) (r c : Fin 4) :
    cell (mixColumns s) r c = dotColumn mixMatrix s r c := cell_ofCells _ r c

@[simp] theorem cell_invMixColumns (s : Block) (r c : Fin 4) :
    cell (invMixColumns s) r c = dotColumn invMixMatrix s r c := cell_ofCells _ r c

/-- `^` on bytes is `^` on words (R160). -/
theorem byteOf_xor (v w : Word) (k : Fin 4) : byteOf (v ^^^ w) k = byteOf v k ^^^ byteOf w k := by
  apply BitVec.eq_of_getLsbD_eq
  intro i hi
  simp [getLsbD_byteOf _ _ _ hi]

/-- R160: AddRoundKey on registers is the XOR of the four words. -/
theorem addRoundKey_words (s k : Block) :
    addRoundKey s k = ⟨s.w0 ^^^ k.w0, s.w1 ^^^ k.w1, s.w2 ^^^ k.w2, s.w3 ^^^ k.w3⟩ := by
  apply block_ext
  intro r c
  rw [cell_addRoundKey]
  match c with
  | 0 | 1 | 2 | 3 => exact (byteOf_xor _ _ r).symm

end Sys2Proof.Machine
end

