-- ==== Sys2Proof/Laws/PerInstr.lean ====
section
/-!
SUPPORT. A statement about every command as syntax, one lemma per constructor (LAWS.json): its word holds exactly the
fields of its row of 30_encoding.md R93, and 0 in every reserved bit (R92).
-/

namespace Sys2Proof.Laws.EncodedFields

/-- The fields of the word of a command are its opcode, its round-key number and its length, and RSV is 0. -/
def Statement (i : Instr) : Prop :=
  opField (encode i) = i.opcode ∧ rkField (encode i) = i.rkOperand ∧ lenField (encode i) = i.lenOperand ∧
    reservedField (encode i) = 0

theorem nop : Statement .nop := by unfold Statement; decide
theorem keyexp : Statement .keyexp := by unfold Statement; decide
theorem chinit : Statement .chinit := by unfold Statement; decide
theorem enc : Statement .enc := by unfold Statement; decide
theorem dec : Statement .dec := by unfold Statement; decide
theorem ldst : Statement .ldst := by unfold Statement; decide
theorem sub : Statement .sub := by unfold Statement; decide
theorem invsub : Statement .invsub := by unfold Statement; decide
theorem shr : Statement .shr := by unfold Statement; decide
theorem invshr : Statement .invshr := by unfold Statement; decide
theorem mix : Statement .mix := by unfold Statement; decide
theorem invmix : Statement .invmix := by unfold Statement; decide
theorem ark (r : BitVec 4) : Statement (.ark r) := by unfold Statement; revert r; decide
theorem arkc : Statement .arkc := by unfold Statement; decide

end Sys2Proof.Laws.EncodedFields
end

