-- ==== Sys2Proof/Tests/Slice0.lean ====
section
/-!
SUPPORT. Tests, their expected values from spec/95_test_vectors.md and from the encoding table R93; and, for every
obligation with hypotheses, a witness that meets them.
-/

namespace Sys2Proof.Machine

/-! ### Small states -/

/-- What is seen of the state a step answers. -/
def observe {σ α : Type} (o : Host.Outcome σ Fault Refusal) (f : σ → α) : Option α :=
  match o with
  | .next t => some (f t)
  | .fault _ | .refused _ => none

/-- The key of the source's known answer. -/
def testKey : Block := blockOfHex 0x000102030405060708090a0b0c0d0e0f

/-- The plaintext of the source's known answer. -/
def testBlock : Block := blockOfHex 0x00112233445566778899aabbccddeeff

/-- The ciphertext of the source's known answer. -/
def testCipher : Block := blockOfHex 0x69c4e0d86a7b0430d8cdb78070b4c55a

/-- After KEYEXP of `testKey` and CHINIT of `chain`, with `st` in ST and `din` in DIN. -/
def keyed (st din chain : Block) : State :=
  { State.reset with
    key := testKey, rk := expand testKey, keyv := true, iv := chain, chain := chain, chv := true, st := st, din := din }

/-- An idle core with the given validity bits, about to take the given accesses. -/
def idleWith (keyv chv : Bool) (accesses : List Access) : State :=
  { State.reset with keyv := keyv, chv := chv, inputs := accesses.map .access }

/-- A core with a command pending, about to take the given accesses. -/
def busyWith (i : Instr) (accesses : List Access) : State :=
  { keyed .zero testBlock .zero with pend := some i, inputs := accesses.map .access }

/-! ### Well-formedness: each check refuses an ill-formed term -/

theorem test_wf_ark_10 : (Instr.ark 10).wf = true := by decide
theorem test_wf_refuses_ark_11 : (Instr.ark 11).wf = false := by decide
theorem test_wf_refuses_ark_15 : (Instr.ark 15).wf = false := by decide

/-! ### Decoding: words written bit by bit from R91 and R93 (LEN, RK, OP) -/

theorem test_decode_nop : decode 0b00000000_00000000_00000000_00000000 = .command .nop := by decide
theorem test_decode_keyexp : decode 0b00000000_00010000_00000000_00000001 = .command .keyexp := by decide
theorem test_decode_chinit : decode 0b00000000_00000000_00000000_00000010 = .command .chinit := by decide
theorem test_decode_enc : decode 0b00000000_00010000_00000000_00000011 = .command .enc := by decide
theorem test_decode_dec : decode 0b00000000_00010000_00000000_00000100 = .command .dec := by decide
theorem test_decode_ldst : decode 0b00000000_00000000_00000000_00001000 = .command .ldst := by decide
theorem test_decode_sub : decode 0b00000000_00000000_00000000_00010000 = .command .sub := by decide
theorem test_decode_invsub : decode 0b00000000_00000000_00000000_00010001 = .command .invsub := by decide
theorem test_decode_shr : decode 0b00000000_00000000_00000000_00010010 = .command .shr := by decide
theorem test_decode_invshr : decode 0b00000000_00000000_00000000_00010011 = .command .invshr := by decide
theorem test_decode_mix : decode 0b00000000_00000000_00000000_00010100 = .command .mix := by decide
theorem test_decode_invmix : decode 0b00000000_00000000_00000000_00010101 = .command .invmix := by decide
theorem test_decode_ark_6 : decode 0b00000000_00000000_00000110_00010110 = .command (.ark 6) := by decide
theorem test_decode_ark_9 : decode 0b00000000_00000000_00001001_00010110 = .command (.ark 9) := by decide
theorem test_decode_arkc : decode 0b00000000_00000000_00000000_00010111 = .command .arkc := by decide

/-- §6.1: the words the decoder refuses, by the check that refuses them. -/
theorem test_decode_rejects :
    decode 0x00000040 = .reject .reservedBits ∧ decode 0x00000080 = .reject .reservedBits ∧
    decode 0x00001000 = .reject .reservedBits ∧ decode 0x01000000 = .reject .reservedBits ∧
    decode 0x00000005 = .reject .reservedOpcode ∧ decode 0x0000003f = .reject .reservedOpcode ∧
    decode 0x00000f16 = .reject .roundKeyField ∧ decode 0x00000110 = .reject .roundKeyField ∧
    decode 0x00100010 = .reject .lengthField ∧ decode 0x00000001 = .reject .keyLength ∧
    decode 0x00ff0004 = .reject .blockLength := by decide

theorem test_decodeTableWord : decodeTableWord 32 0x00000a16 = some (.ark 10) ∧ decodeTableWord 32 0x00000b16 = none := by
  decide

/-! ### CMD writes (§6.1): the state after one write to CMD, as (ERR, DONE, BUSY) -/

/-- What a write of `v` to CMD leaves in ERR, DONE and BUSY. -/
def afterCmd (keyv chv : Bool) (v : Word) : Option (ErrCode × Bool × Bool) :=
  observe (step (idleWith keyv chv [.write 0 v])) fun t => (t.err, t.done, busy t)

theorem test_cmd_accepted :
    afterCmd false false 0x00000000 = some (.noError, false, true) ∧
    afterCmd false false 0x00100001 = some (.noError, false, true) ∧
    afterCmd false false 0x00000002 = some (.noError, false, true) ∧
    afterCmd true true 0x00100003 = some (.noError, false, true) ∧
    afterCmd false false 0x00000008 = some (.noError, false, true) ∧
    afterCmd true false 0x00000a16 = some (.noError, false, true) ∧
    afterCmd false true 0x00000017 = some (.noError, false, true) := by decide

theorem test_cmd_illegal :
    afterCmd true true 0x00000b16 = some (.illegalCommand, true, false) ∧
    afterCmd true true 0x80100003 = some (.illegalCommand, true, false) ∧
    afterCmd true true 0x00101016 = some (.illegalCommand, true, false) ∧
    afterCmd true true 0x00000018 = some (.illegalCommand, true, false) ∧
    afterCmd false false 0x00100002 = some (.illegalCommand, true, false) := by decide

theorem test_cmd_lengths :
    afterCmd true true 0x000f0001 = some (.invalidKeyLength, true, false) ∧
    afterCmd false false 0x00110001 = some (.invalidKeyLength, true, false) ∧
    afterCmd false false 0x000f0003 = some (.invalidBlockLength, true, false) ∧
    afterCmd true true 0x00ff0004 = some (.invalidBlockLength, true, false) := by decide

theorem test_cmd_preconditions :
    afterCmd false false 0x00100003 = some (.noKey, true, false) ∧
    afterCmd true false 0x00100003 = some (.noChain, true, false) ∧
    afterCmd false true 0x00100004 = some (.noKey, true, false) ∧
    afterCmd false false 0x00000016 = some (.noKey, true, false) ∧
    afterCmd true false 0x00000017 = some (.noChain, true, false) := by decide

/-! ### One completion of each command (§4.5, §5, §2.2) -/

/-- ST after the command `i`. -/
def stAfter (i : Instr) (st : BitVec 128) : Option Block :=
  observe (exec i (keyed (blockOfHex st) testBlock testKey)) (·.st)

theorem test_nop : stAfter .nop 0x00112233445566778899aabbccddeeff = some testBlock := by decide +kernel

theorem test_ldst : stAfter .ldst 0 = some testBlock := by decide +kernel

theorem test_sub : stAfter .sub 0x00112233445566778899aabbccddeeff =
    some (blockOfHex 0x638293c31bfc33f5c4eeacea4bc12816) := by decide +kernel

theorem test_invsub : stAfter .invsub 0x00112233445566778899aabbccddeeff =
    some (blockOfHex 0x52e3946686edd30297f962fe27c9997d) := by decide +kernel

theorem test_shr : stAfter .shr 0x000102030405060708090a0b0c0d0e0f =
    some (blockOfHex 0x00050a0f04090e03080d02070c01060b) := by decide +kernel

theorem test_invshr : stAfter .invshr 0x000102030405060708090a0b0c0d0e0f =
    some (blockOfHex 0x000d0a0704010e0b0805020f0c090603) := by decide +kernel

theorem test_mix : stAfter .mix 0xdb135345f20a225c01010101c6c6c6c6 =
    some (blockOfHex 0x8e4da1bc9fdc589d01010101c6c6c6c6) := by decide +kernel

theorem test_mix_wide : stAfter .mix 0xd4d4d4d52d26314c0000000080000000 =
    some (blockOfHex 0xd5d5d7d64d7ebdf8000000001b80809b) := by decide +kernel

theorem test_invmix : stAfter .invmix 0x8e4da1bc9fdc589d01010101c6c6c6c6 =
    some (blockOfHex 0xdb135345f20a225c01010101c6c6c6c6) := by decide +kernel

theorem test_invmix_unit : stAfter .invmix 0x01000000000000000000000000000000 =
    some (blockOfHex 0x0e090d0b000000000000000000000000) := by decide +kernel

theorem test_ark_1 : stAfter (.ark 1) 0x00112233445566778899aabbccddeeff =
    some (blockOfHex 0xd6bb56ce96fa148d523fd24a1a769801) := by decide +kernel

theorem test_ark_10 : stAfter (.ark 10) 0x00112233445566778899aabbccddeeff =
    some (blockOfHex 0x13003f4ca7c12c607b9e0d3081f6de3a) := by decide +kernel

theorem test_arkc : stAfter .arkc 0x00112233445566778899aabbccddeeff =
    some (blockOfHex 0x00102030405060708090a0b0c0d0e0f0) := by decide +kernel

theorem test_chinit : observe (exec .chinit { State.reset with iv := testKey }) (fun t => (t.chain, t.chv)) =
    some (testKey, true) := by decide

theorem test_keyexp : observe (exec .keyexp { State.reset with key := testKey })
    (fun t => (t.rk[0], t.rk[4], t.rk[8], t.rk[43], t.keyv)) =
    some (0x00010203, 0xd6aa74fd, 0xb692cf0b, 0x4d2b30c5, true) := by decide +kernel

theorem test_keyexp_ones : observe (exec .keyexp { State.reset with key := blockOfHex 0xffffffffffffffffffffffffffffffff })
    (fun t => (t.rk[4], t.rk[11], t.rk[40])) = some (0xe8e9e9e9, 0x454747f0, 0xd60a3588) := by decide +kernel

theorem test_enc : observe (exec .enc (keyed .zero testBlock testKey)) (fun t => (t.st, t.chain)) =
    some (blockOfHex 0x76d0627da1d290436e21a4af7fca94b7, blockOfHex 0x76d0627da1d290436e21a4af7fca94b7) := by
  decide +kernel

theorem test_enc_zero_chain : observe (exec .enc (keyed .zero testBlock .zero)) (·.st) = some testCipher := by
  decide +kernel

theorem test_dec : observe (exec .dec (keyed .zero (blockOfHex 0x76d0627da1d290436e21a4af7fca94b7) testKey))
    (fun t => (t.st, t.chain)) = some (testBlock, blockOfHex 0x76d0627da1d290436e21a4af7fca94b7) := by decide +kernel

/-! ### Arithmetic (§2.1) and the stream (§4.1, §4.2) -/

theorem test_xtime : xtime 0x57 = 0xae ∧ xtime 0x80 = 0x1b ∧ xtime 0xff = 0xe5 := by decide

theorem test_gmul : gmul 0x57 0x83 = 0xc1 ∧ gmul 0x57 0x13 = 0xfe ∧ gmul 0x53 0xca = 0x01 ∧ gmul 0xff 0xff = 0x13 := by
  decide

theorem test_sbox : sbox 0x53 = 0xed ∧ sbox 0xff = 0x16 ∧ invSbox 0x53 = 0x50 ∧ invSbox 0x63 = 0x00 := by decide

theorem test_encryptStream : encryptStream testKey .zero [testBlock, .zero] =
    [testCipher, blockOfHex 0x4f638c735f614301567824b1a21a4f6a] := by decide +kernel

theorem test_decryptStream : decryptStream testKey .zero [testCipher, blockOfHex 0x4f638c735f614301567824b1a21a4f6a] =
    [testBlock, .zero] := by decide +kernel

/-! ### The bus (§6.2) and reset (§6.3) -/

theorem test_busy_write_dropped : observe (step (busyWith .enc [.write 12 0xdeadbeef])) (fun t => (t.din, t.ovr)) =
    some (testBlock, true) := by decide +kernel

theorem test_busy_status : observe (runSteps 2 (busyWith .enc [.write 12 0xdeadbeef, .read 1])) (·.reads) =
    some [(1, 0x0000001d)] := by decide +kernel

theorem test_clear_ovr : observe (step { idleWith false false [.write 1 0xffffffff] with ovr := true }) (·.ovr) =
    some false := by decide

theorem test_idle_reads : observe (runSteps 4 (idleWith false false [.read 0, .read 2, .read 24, .read 255])) (·.reads) =
    some [(255, 0), (24, 0), (2, 0), (0, 0)] := by decide

/-- R100: `expect 0x1AC, 0x4d2b30c5` after KEYEXP of `testKey`. -/
theorem test_expect : observe (runProgram [.host] [expect 0x1AC] (keyed .zero .zero .zero)) (fun r => r.2.reads.head?) =
    some (some (wordIndex 0x1AC, 0x4d2b30c5)) := by decide +kernel

/-- R280: a `wait` polls until the completion: here two polls read BUSY = 1, and the one after it STATUS 0x2. -/
theorem test_wait_polls : observe (runProgram [.host, .host, .host, .core, .host] (run 0x00000000) State.reset)
    (fun r => (r.1, r.2.reads)) = some ([], [(1, 0x2), (1, 0x1), (1, 0x1)]) := by decide

/-- R281: a `wait` ends at its first read after a refusal, with DONE = 1 and ERR = 3. -/
theorem test_wait_refused : observe (runProgram (List.replicate 6 .host) (run 0x00000005) State.reset)
    (fun r => (r.1, r.2.reads)) = some ([], [(1, 0x302)]) := by decide

/-- The turns of a run in which the core is slow at first: KEYEXP is polled three times, the commands after it once. -/
def slowStart : List Agent := List.replicate 8 .host ++ (List.replicate 40 [Agent.core, .host]).flatten

/-- §4.2: the entry points of R102, two blocks each, in a run whose waits poll different numbers of times. -/
theorem test_encryptProgram :
    observe (runProgram slowStart (encryptProgram testKey .zero [testBlock, .zero]) State.reset)
      (fun r => (r.1, outputSequence State.reset r.2)) =
    some ([], [testCipher, blockOfHex 0x4f638c735f614301567824b1a21a4f6a]) := by decide +kernel

theorem test_decryptProgram :
    observe (runProgram slowStart
        (decryptProgram testKey .zero [testCipher, blockOfHex 0x4f638c735f614301567824b1a21a4f6a]) State.reset)
      (fun r => (r.1, outputSequence State.reset r.2)) = some ([], [testBlock, .zero]) := by decide +kernel

theorem test_read_rkw : observe (step { keyed .zero .zero .zero with inputs := [.access (.read 107)] }) (·.reads) =
    some [(107, 0x4d2b30c5)] := by decide +kernel

theorem test_reset : observe (step { busyWith .enc [] with ovr := true, inputs := [.reset (some (.write 4 1))] })
    (fun t => (t.key, t.st, statusWord t, t.pend)) = some (.zero, .zero, 0, none) := by decide +kernel

/-- R62: the boundaries of the register map. -/
theorem test_locate : locate 0 = .cmd ∧ locate 1 = .status ∧ locate 3 = .reserved ∧ locate 4 = .key 0 ∧
    locate 7 = .key 3 ∧ locate 8 = .iv 0 ∧ locate 11 = .iv 3 ∧ locate 12 = .din 0 ∧ locate 15 = .din 3 ∧
    locate 16 = .dout 0 ∧ locate 19 = .dout 3 ∧ locate 20 = .chain 0 ∧ locate 23 = .chain 3 ∧ locate 24 = .reserved ∧
    locate 63 = .reserved ∧ locate 64 = .rkw 0 ∧ locate 107 = .rkw 43 ∧ locate 108 = .reserved ∧
    locate 255 = .reserved := by decide

/-- Log 7: a placed command is run by the very next step. -/
theorem test_withFetchWord : observe (step (State.reset.withFetchWord 32 0x00000010)) (fun t => (t.st, t.done)) =
    some (blockOfHex 0x63636363636363636363636363636363, true) := by decide +kernel

/-- Log 7: a placed word that the decoder refuses is refused by the very next step. -/
theorem test_withFetchWord_refused : observe (step (State.reset.withFetchWord 32 0x00000005)) (·.err) =
    some .illegalCommand := by decide

/-! ### Witnesses: a state and operands that meet the hypotheses of each obligation that has any -/

/-- The invariant of an idle core with a complete schedule, whatever its operands. -/
theorem keyed_invariant (st din chain : Block) : Invariant (keyed st din chain) :=
  ⟨fun _ => ⟨testKey, rfl⟩, nofun, nofun, nofun, nofun⟩

/-- The invariant of a core with an ENC pending. -/
theorem busy_invariant (accesses : List Access) : Invariant (busyWith .enc accesses) := by
  refine ⟨fun _ => ⟨testKey, rfl⟩, ?_, nofun, fun _ => rfl, fun _ => rfl⟩
  rintro i ⟨⟩
  rfl

theorem witness_DecodeInvertsEncode : (Instr.ark 10).wf = true ∧ Instr.nop.wf = true := by decide

theorem witness_FieldsAreTheBitsOfTheWord : reservedField 0x00100a16 = 0 := by decide

theorem witness_AssemblerWords : (255 : Nat) ≤ 255 ∧ (255 : Nat) < 256 ∧
    assemble (.enc (some 255)) = some 0x00ff0003 ∧ assemble (.enc (some 256)) = none ∧
    assemble (.ark 15) = some 0x00000f16 ∧ assemble (.ark 16) = none := by decide

/-- One word for each clause: `test_cmd_accepted`, `test_cmd_illegal`, `test_cmd_lengths` and `test_cmd_preconditions`
give the values each clause leaves. -/
theorem witness_CmdWriteRunsTheChecksInOrder : ∀ v ∈ [0x01000000#32, 0x00000018, 0x00000b16, 0x00000110, 0x00100002,
      0x000f0001, 0x00110004, 0x00100003, 0x00000017, 0x00100001],
    (idleWith false false [.write 0 v]).inputs = .access (.write 0 v) :: [] ∧
      (idleWith false false [.write 0 v]).pend = none := by
  intro v _
  exact ⟨rfl, rfl⟩

theorem witness_WrongKeyLengthIsRefused : ∀ len ∈ [0, 15, 17, 255], len < 256 ∧ len ≠ 16 ∧
    (idleWith true true []).pend = none ∧
    (idleWith true true [.write 0 (BitVec.ofNat 32 (len * 65536 + 1))]).inputs =
      .access (.write 0 (BitVec.ofNat 32 (len * 65536 + 1))) :: [] := by decide

theorem witness_WrongBlockLengthIsRefused : ∀ len ∈ [0, 15, 17, 255], ∀ op ∈ [3, 4],
    len < 256 ∧ len ≠ 16 ∧ (op = 3 ∨ op = 4) ∧ (idleWith true true []).pend = none ∧
    (idleWith true true [.write 0 (BitVec.ofNat 32 (len * 65536 + op))]).inputs =
      .access (.write 0 (BitVec.ofNat 32 (len * 65536 + op))) :: [] := by decide

theorem witness_AcceptedCommandNeverFails : Invariant (busyWith .enc []) ∧ (busyWith .enc []).pend = some .enc :=
  ⟨busy_invariant [], rfl⟩

/-- The word indexes of each clause, at the ends of its range. -/
theorem witness_IdleWriteByLocation :
    (∀ index ∈ [0#8, 1, 2, 3, 4, 7, 8, 11, 12, 15, 16, 255], (idleWith false false [.write index 5]).inputs =
      .access (.write index 5) :: [] ∧ (idleWith false false [.write index 5]).pend = none) ∧
    (4#8).toNat = 4 + (0 : Fin 4).val ∧ (7#8).toNat = 4 + (3 : Fin 4).val ∧ (8#8).toNat = 8 + (0 : Fin 4).val ∧
    (11#8).toNat = 8 + (3 : Fin 4).val ∧ (12#8).toNat = 12 + (0 : Fin 4).val ∧ (15#8).toNat = 12 + (3 : Fin 4).val ∧
    (16#8).toNat = 16 ∧ (255#8).toNat = 255 := by decide

theorem witness_BusyWriteByLocation :
    ∀ index ∈ [0#8, 1, 2, 3, 4, 15, 16, 255], (busyWith .enc [.write index 5]).inputs = .access (.write index 5) :: [] ∧
      (busyWith .enc [.write index 5]).pend ≠ none ∧
      ((index.toNat = 0 ∨ 4 ≤ index.toNat ∧ index.toNat < 16) ∨ index.toNat = 1 ∨
        (index.toNat = 2 ∨ index.toNat = 3 ∨ 16 ≤ index.toNat)) := by
  intro index h
  refine ⟨rfl, nofun, ?_⟩
  revert index
  decide

/-- A dropped write, a clearing STATUS write, and a step that clears OVR. -/
theorem witness_OvrIsSetByDropsAndClearedOnlyOnRequest :
    observe (step (busyWith .enc [.write 4 5])) (·.ovr) = some true ∧
    observe (step (busyWith .enc [.write 15 5])) (·.ovr) = some true ∧
    observe (step { busyWith .enc [.write 1 0x10] with ovr := true }) (·.ovr) = some false ∧
    observe (step { State.reset with ovr := true, inputs := [.reset none] }) (·.ovr) = some false := by decide +kernel

theorem witness_ReadByLocation :
    ∀ index ∈ [0#8, 1, 2, 3, 4, 7, 8, 11, 12, 15, 16, 19, 20, 23, 24, 63, 64, 107, 108, 255],
      (idleWith true true [.read index]).inputs = .access (.read index) :: [] ∧
      (busyWith .enc [.read index]).inputs = .access (.read index) :: [] ∧
      (idleWith true true [.read index]).pend = none ∧ (busyWith .enc [.read index]).pend ≠ none ∧
      (idleWith true true [.read index]).keyv = true :=
  fun _ _ => ⟨rfl, rfl, rfl, nofun, rfl⟩

theorem witness_ResetCycleFromAnyState : ∀ a ∈ [none, some (.read 16), some (.write 4 1)],
    ({ busyWith .enc [] with inputs := [.reset a] } : State).inputs = .reset a :: [] := fun _ _ => rfl

/-- R140: the two cases of the recurrence, at the ends of its range. -/
theorem witness_KeyexpExpandsKey : (4 ≤ 4 ∧ 4 < 44 ∧ 4 % 4 = 0) ∧ (4 ≤ 40 ∧ 40 < 44 ∧ 40 % 4 = 0) ∧
    (4 ≤ 5 ∧ 5 < 44 ∧ 5 % 4 ≠ 0) ∧ 4 ≤ 43 ∧ 43 < 44 ∧ 43 % 4 ≠ 0 := by decide

theorem witness_ShiftCommandsRotateRows : (2 : Fin 4).val = ((3 : Fin 4).val + (3 : Fin 4).val) % 4 ∧
    (1 : Fin 4).val = ((0 : Fin 4).val + 4 - (3 : Fin 4).val) % 4 := by decide

theorem witness_ArkAddsRoundKey : (10#4).toNat ≤ 10 ∧ (keyed .zero .zero .zero).keyv = true := by decide

theorem witness_ArkcAddsChain : (keyed .zero .zero .zero).chv = true := by decide

theorem witness_EncEncryptsAndChains : (keyed .zero .zero testKey).keyv = true ∧ (keyed .zero .zero testKey).chv = true := by
  decide

theorem witness_DecDecryptsAndChains : (keyed .zero .zero testKey).keyv = true ∧ (keyed .zero .zero testKey).chv = true := by
  decide

/-- The round-key number of the first clause, and the validity bits of the three others. -/
theorem witness_UnmetPreconditionsRefuse : 10 < (11#4).toNat ∧ 10 < (15#4).toNat ∧ State.reset.keyv = false ∧
    (10#4).toNat ≤ 10 ∧ State.reset.chv = false ∧
    (idleWith true false []).keyv = true ∧ (idleWith true false []).chv = false := by decide

theorem witness_StepRunsTheDecodedCommand :
    ((busyWith .enc []).pend = some .enc ∧ (busyWith .enc []).inputs = []) ∧
    ({ busyWith .enc [] with inputs := [.coreTurn] } : State).inputs = .coreTurn :: [] ∧
    decode 0x00100003 = .command .enc ∧ Instr.enc.wf = true ∧ (keyed .zero .zero .zero).pend = none ∧
    refusalCode .enc (keyed .zero .zero .zero) = none ∧
    ({ keyed .zero .zero .zero with inputs := [.access (.write 0 0x00100003), .coreTurn] } : State).inputs =
      .access (.write 0 0x00100003) :: .coreTurn :: [] := by decide

theorem witness_EveryStepKeepsTheInvariant :
    Invariant (busyWith .enc [.read 1]) ∧ ∃ t, step (busyWith .enc [.read 1]) = .next t :=
  ⟨busy_invariant _, _, rfl⟩

theorem witness_PendingCommandSeesNoAccess :
    (busyWith .enc []).pend = some .enc ∧
    ({ busyWith .enc [] with inputs := [.access (.write 12 1), .access (.read 16), .coreTurn] } : State).inputs =
      [Access.write 12 1, .read 16].map .access ++ .coreTurn :: [] ∧
    ∃ t, exec .enc { busyWith .enc [] with
      inputs := [.access (.write 12 1), .access (.read 16), .coreTurn] } = .next t :=
  ⟨rfl, rfl, _, rfl⟩

/-- An accepted command, and a refused word, each with a run that ends. -/
theorem witness_RunCommandOverTheBus :
    ((keyed .zero .zero .zero).pend = none ∧ refusalCode .enc (keyed .zero .zero .zero) = none ∧
      ∃ u, runProgram [.core, .host, .host, .core, .host] (run (encode .enc)) (keyed .zero .zero .zero) = .next ([], u)) ∧
    State.reset.pend = none ∧ (presentCommand 0x00100003 State.reset).pend = none ∧
      ∃ u, runProgram [.host, .core, .host] (run 0x00100003) State.reset = .next ([], u) :=
  ⟨⟨rfl, rfl, _, rfl⟩, rfl, rfl, _, rfl⟩

theorem witness_LoadBlockWritesTheRegister : State.reset.pend = none := rfl

/-- Steps that are no reset and change KEY, IV and DIN. -/
theorem witness_OperandRegistersChangeOnlyByHostWrites :
    observe (step (idleWith false false [.write 4 5])) (·.key.w0) = some 5 ∧
    observe (step (idleWith false false [.write 11 5])) (·.iv.w3) = some 5 ∧
    observe (step (idleWith false false [.write 15 5])) (·.din.w3) = some 5 ∧
    ∀ a rest, (idleWith false false [.write 4 5]).inputs ≠ .reset a :: rest :=
  ⟨by decide, by decide, by decide, nofun⟩

/-- Steps that are no reset and change ST, CHAIN and RK. -/
theorem witness_ResultRegistersChangeOnlyByTheirCommands :
    observe (step { State.reset with pend := some .ldst, din := testBlock }) (·.st) = some testBlock ∧
    observe (step { State.reset with pend := some .chinit, iv := testBlock }) (·.chain) = some testBlock ∧
    observe (step { State.reset with pend := some .keyexp, key := testKey }) (·.rk[3]) = some 0x0c0d0e0f ∧
    ∀ a rest, State.reset.inputs ≠ .reset a :: rest :=
  ⟨by decide, by decide, by decide +kernel, nofun⟩

/-- Steps that set and clear KEYV and CHV. -/
theorem witness_ValidityBitsChangeOnlyByTheirCommands :
    observe (step { State.reset with pend := some .keyexp }) (·.keyv) = some true ∧
    observe (step (idleWith true true [.write 0 0x00100001])) (·.keyv) = some false ∧
    observe (step { State.reset with pend := some .chinit }) (·.chv) = some true ∧
    observe (step { idleWith true true [] with inputs := [.reset none] }) (fun t => (t.keyv, t.chv)) =
      some (false, false) :=
  ⟨by decide, by decide, by decide, rfl⟩

/-- Two states that differ in RK, and a KEYEXP that completes. -/
theorem witness_ScheduleUnusedWithoutKeyv :
    Invariant { State.reset with pend := some .keyexp } ∧
    ({ State.reset with pend := some .keyexp } : State).keyv = false ∧
    sameButSchedule { State.reset with pend := some .keyexp }
      { State.reset with pend := some .keyexp, rk := Vector.replicate 44 1 } ∧
    observe (step { State.reset with pend := some .keyexp }) (·.keyv) = some true := by
  refine ⟨⟨nofun, ?_, fun _ => rfl, fun _ => rfl, fun _ => rfl⟩, rfl, rfl, by decide⟩
  rintro i ⟨⟩
  rfl

theorem witness_GmulIsAFieldProduct : (0x80 : Byte) ≠ 0 := by decide

theorem witness_BytesOfARegister : (0 : Fin 16).val = 4 * (0 : Fin 4).val + (0 : Fin 4).val ∧
    (11 : Fin 16).val = 4 * (2 : Fin 4).val + (3 : Fin 4).val ∧
    (15 : Fin 16).val = 4 * (3 : Fin 4).val + (3 : Fin 4).val := by decide

theorem witness_CommandsComputeTheStream : (keyed .zero .zero testKey).keyv = true ∧ (keyed .zero .zero testKey).chv = true := by
  decide

/-- A schedule that is valid, and a saved chain value that is not the one CHAIN holds. -/
theorem witness_ResumedStreamIsUnbroken : (keyed .zero .zero testKey).keyv = true ∧
    (keyed .zero .zero testKey).chain ≠ testCipher := by decide

theorem witness_ZeroChainIsPlainCipher : (keyed .zero testBlock .zero).keyv = true ∧
    (keyed .zero testBlock .zero).chv = true ∧ (keyed .zero testBlock .zero).chain = .zero := by decide

theorem witness_IvSensitivity : Block.zero ≠ blockOfHex 0x80000000000000000000000000000000 := by decide

theorem witness_PrimitivesComputeCipher : (keyed .zero testBlock .zero).keyv = true := by decide

theorem witness_WindowAddresses : 0 < 4 ∧ 3 < 4 ∧ Config.coreBase + 1024 ≤ Config.coreBase + 1024 ∧
    Config.coreBase ≤ Config.coreBase + 4 * (255#8).toNat + 3 := by
  refine ⟨by decide, by decide, Nat.le_refl _, ?_⟩
  omega

end Sys2Proof.Machine
end

section
/-!
The turns of a run (R17, R40) with the acceptance of a CMD write (R243), and the byte order of a register (R12, R61).
-/

namespace Sys2Proof.Machine

/-! ### The core's turn, and the acceptance of a CMD write -/

/-- R40: when the queue gives the core the turn, the pending command completes in the state without that event. -/
theorem step_coreTurn_of_pend {s : State} {i : Instr} {rest : List Event} (hp : s.pend = some i)
    (hi : s.inputs = .coreTurn :: rest) : step s = exec i { s with inputs := rest } :=
  (step_cons hi).trans (coreTurn_some hp)

/-- R40, R283: when the host has nothing more to do, the pending command completes. -/
theorem step_nil_of_pend {s : State} {i : Instr} (hp : s.pend = some i) (hi : s.inputs = []) :
    step s = exec i s :=
  (step_nil hi).trans (coreTurn_some hp)

/-- R243: a word whose command passes its checks is accepted. -/
theorem presentCommand_accepts {v : Word} {i : Instr} {s : State} (hd : decode v = .command i)
    (hc : refusalCode i s = none) : presentCommand v s = acceptCommand i s := by
  simp [presentCommand, hd, hc]

/-- R62, R65: a write to word 0 of an idle core presents its word to the decoder. -/
theorem performAccess_write_cmd {s : State} (hp : s.pend = none) (v : Word) :
    performAccess (.write 0 v) s = presentCommand v s :=
  busWrite_idle hp 0 v

/-- R243: the step that takes an acceptable CMD write to an idle core accepts its command. -/
theorem step_accepts_command {s : State} {i : Instr} {v : Word} {rest : List Event} (hd : decode v = .command i)
    (hp : s.pend = none) (hc : refusalCode i s = none) (hi : s.inputs = .access (.write 0 v) :: rest) :
    step s = .next (acceptCommand i { s with inputs := rest }) := by
  have hc' : refusalCode i { s with inputs := rest } = none := hc
  rw [step_cons hi, runEvent, performAccess_write_cmd (by exact hp), presentCommand_accepts hd hc']

/-- Settles O30: acceptance leaves the command pending with the core's turn next in the queue, so the second part ends
with the rule of the first. -/
theorem stepRunsTheDecodedCommand : Obligations.StepRunsTheDecodedCommand := by
  refine ⟨fun s i hp => ⟨step_nil_of_pend hp, fun rest => step_coreTurn_of_pend hp⟩, ?_⟩
  intro s i v rest hd _ hp hc hi
  exact ⟨_, step_accepts_command hd hp hc hi, rfl,
    step_coreTurn_of_pend (acceptCommand_pend ..) (acceptCommand_inputs ..)⟩

/-! ### The byte order of a register -/

/-- R12, R61: byte `4j + k` of a block is the byte at row `k` of column `j`. -/
theorem blockByte_eq_cell (b : Block) {i : Fin 16} {j k : Fin 4} (h : i.val = 4 * j.val + k.val) :
    blockByte b i = cell b k j := by
  have hj : (⟨i.val / 4, by omega⟩ : Fin 4) = j := Fin.ext (by simp only; omega)
  have hk : (⟨i.val % 4, by omega⟩ : Fin 4) = k := Fin.ext (by simp only; omega)
  rw [blockByte, hj, hk, cell]

/-- Settles O46: both readings are byte `k` of word `j`. -/
theorem bytesOfARegister : Obligations.BytesOfARegister := by
  intro b i j k h
  exact ⟨blockByte_eq_cell b h, (blockByte_eq_cell b h).symm⟩

end Sys2Proof.Machine
end

section
/-!
What one event of a run can do (R17, R40, R64 to R66, R270), said once for the whole-machine rules of 10_state.md.
-/

namespace Sys2Proof.Machine

/-! ### The register map (R62) -/

/-- R62: the word indexes at which a location stands. -/
def Location.standsAt (l : Location) (n : Nat) : Prop :=
  match l with
  | .cmd => n = 0
  | .status => n = 1
  | .key j => n = 4 + j.val
  | .iv j => n = 8 + j.val
  | .din j => n = 12 + j.val
  | .dout j => n = 16 + j.val
  | .chain j => n = 20 + j.val
  | .rkw i => n = 64 + i.val
  | .reserved => n = 2 ∨ n = 3 ∨ 24 ≤ n ∧ n < 64 ∨ 108 ≤ n

/-- R62: a word index selects a location that stands at it. -/
theorem locate_standsAt (index : BitVec 8) : (locate index).standsAt index.toNat := by
  simp only [locate]
  repeat' split
  all_goals
    simp only [Location.standsAt, Fin.ofNat]
    omega

/-! ### Completing a command (R40) -/

/-- R94, R242: a command may run exactly when its round key is legal and the validity bits it needs are set. -/
theorem refusalCode_eq_none {i : Instr} {s : State} :
    refusalCode i s = none ↔ roundKeyLegal i i.rkOperand = true ∧ (needsKey i = true → s.keyv = true) ∧
      (needsChain i = true → s.chv = true) := by
  unfold refusalCode
  grind

/-- A command whose checks pass ends with its effect. -/
theorem exec_runs {i : Instr} {s : State} (h : refusalCode i s = none) :
    exec i s = .next (finishCommand (effect i s)) :=
  (exec_eq_completeCommand i s).trans (completeCommand_runs h)

/-- R40: a turn of the core answers a state. -/
theorem coreTurn_answers (s : State) : ∃ t, coreTurn s = .next t := by
  cases hp : s.pend with
  | none => exact ⟨s, coreTurn_none hp⟩
  | some i =>
    rw [coreTurn_some hp, exec_eq_completeCommand]
    cases hc : refusalCode i s with
    | none => exact ⟨_, completeCommand_runs hc⟩
    | some code => exact ⟨_, completeCommand_refused hc⟩

/-- R40: a turn of the core leaves no command pending. -/
theorem coreTurn_pend {s t : State} (h : coreTurn s = .next t) : t.pend = none := by
  obtain ⟨hp, rfl⟩ | ⟨i, code, -, -, rfl⟩ | ⟨i, -, -, rfl⟩ := coreTurn_cases h
  · exact hp
  · rfl
  · rfl

/-- R22, R24, R25, R34: a turn of the core touches no operand register, not OVR, and none of the model's own fields. -/
theorem coreTurn_frame {s t : State} (h : coreTurn s = .next t) :
    t = { t with
      key := s.key, iv := s.iv, din := s.din, ovr := s.ovr, inputs := s.inputs, reads := s.reads, draws := s.draws } := by
  obtain ⟨-, rfl⟩ | ⟨i, code, -, -, rfl⟩ | ⟨i, -, -, rfl⟩ := coreTurn_cases h
  · rfl
  · rfl
  · rw [effect_frame]; rfl

/-! ### Accesses (R64 to R66) -/

/-- R32: BUSY is 1 while a command is pending. -/
theorem busy_of_pend {s : State} (h : s.pend ≠ none) : busy s = true := Option.isSome_iff_ne_none.mpr h

/-- R64: a read changes only the model's own record. -/
theorem busRead_frame (index : BitVec 8) (s : State) :
    busRead index s = { s with reads := (busRead index s).reads, draws := (busRead index s).draws } := by
  obtain ⟨v, -, h⟩ | ⟨-, h⟩ := busRead_cases index s <;> rw [h] <;> rfl

/-- R65, R66: no write reaches ST, CHAIN, RK, CHV or the model's own fields. -/
theorem busWrite_frame (index : BitVec 8) (v : Word) (s : State) :
    busWrite index v s = { busWrite index v s with
      st := s.st, chain := s.chain, rk := s.rk, chv := s.chv, inputs := s.inputs, reads := s.reads
      draws := s.draws } := by
  unfold busWrite
  split
  · rw [writeBusy_eq]
  · cases locate index with
    | cmd => obtain ⟨code, -, h⟩ | ⟨i, -, -, h⟩ := presentCommand_cases v s <;> simp only [writeIdle, h] <;> rfl
    | status => simp only [writeIdle, writeStatus_eq]
    | key j | iv j | din j | dout j | chain j | rkw j | reserved => rfl

/-- R64 to R66: no access reaches ST, CHAIN, RK, CHV or the queue. -/
theorem performAccess_frame (a : Access) (s : State) :
    performAccess a s = { performAccess a s with
      st := s.st, chain := s.chain, rk := s.rk, chv := s.chv, inputs := s.inputs } := by
  cases a with
  | read index => rw [performAccess, busRead_frame]
  | write index v => rw [performAccess, busWrite_frame]

/-- R22, R24, R25, R66: a write changes KEY, IV or DIN only at a word of that register, and only on an idle core. -/
theorem busWrite_operands (index : BitVec 8) (v : Word) (s : State) :
    ((busWrite index v s).key = s.key ∨ s.pend = none ∧ 4 ≤ index.toNat ∧ index.toNat < 8) ∧
      ((busWrite index v s).iv = s.iv ∨ s.pend = none ∧ 8 ≤ index.toNat ∧ index.toNat < 12) ∧
      ((busWrite index v s).din = s.din ∨ s.pend = none ∧ 12 ≤ index.toNat ∧ index.toNat < 16) := by
  by_cases hp : s.pend = none
  · have hl := locate_standsAt index
    rw [busWrite_idle hp]
    cases h : locate index with
    | cmd => obtain ⟨code, -, h⟩ | ⟨i, -, -, h⟩ := presentCommand_cases v s <;> simp [writeIdle, h]
    | status => simp [writeIdle, writeStatus_eq]
    | key j | iv j | din j =>
      simp only [h, Location.standsAt] at hl
      simp [writeIdle, hp]
      omega
    | dout j | chain j | rkw j | reserved => simp [writeIdle]
  · rw [busWrite_busy (busy_of_pend hp), writeBusy_eq]
    simp

/-- R66: the word indexes whose write is dropped while BUSY = 1: those of CMD, KEY, IV and DIN. -/
def droppedWhileBusy (index : BitVec 8) : Prop := index.toNat = 0 ∨ 4 ≤ index.toNat ∧ index.toNat < 16

/-- R34: what a write does to OVR. A STATUS write may clear it, a dropped write sets it, and every other write leaves
it. -/
theorem busWrite_ovr (index : BitVec 8) (v : Word) (s : State) :
    (index.toNat = 1 ∧ (busWrite index v s).ovr = (s.ovr && !v.getLsbD 4)) ∨
      (s.pend ≠ none ∧ droppedWhileBusy index ∧ (busWrite index v s).ovr = true) ∨
      (index.toNat ≠ 1 ∧ ¬(s.pend ≠ none ∧ droppedWhileBusy index) ∧ (busWrite index v s).ovr = s.ovr) := by
  have hl := locate_standsAt index
  unfold droppedWhileBusy
  by_cases hp : s.pend = none
  · rw [busWrite_idle hp]
    cases h : locate index <;> simp only [h, Location.standsAt] at hl
    case cmd =>
      obtain ⟨code, -, h⟩ | ⟨i, -, -, h⟩ := presentCommand_cases v s <;> simp [writeIdle, h, hp, hl]
    case status => simp [writeIdle, writeStatus_eq, hl]
    all_goals simp [writeIdle, hp]; omega
  · rw [busWrite_busy (busy_of_pend hp)]
    cases h : locate index <;> simp only [h, Location.standsAt] at hl
    case status => simp [writeBusy, writeStatus_eq, hl]
    all_goals simp [writeBusy, hp]; omega

/-- R29, R243: an access leaves KEYV, or it is the acceptance of a KEYEXP, which clears it. -/
theorem performAccess_keyv (a : Access) (s : State) :
    (performAccess a s).keyv = s.keyv ∨
      (s.pend = none ∧ (performAccess a s).pend = some .keyexp ∧ (performAccess a s).keyv = false) := by
  cases a with
  | read index => rw [performAccess, busRead_frame]; exact .inl rfl
  | write index v =>
    by_cases hp : s.pend = none
    · rw [performAccess, busWrite_idle hp]
      cases locate index with
      | cmd =>
        obtain ⟨code, -, h⟩ | ⟨i, -, -, h⟩ := presentCommand_cases v s <;> simp only [writeIdle, h]
        · simp
        · by_cases hi : i = .keyexp <;> simp [hi, hp]
      | status => simp [writeIdle, writeStatus_eq]
      | key j | iv j | din j | dout j | chain j | rkw j | reserved => exact .inl rfl
    · rw [performAccess_busy (busy_of_pend hp)]
      exact .inl rfl

/-- R29: no access sets KEYV. -/
theorem performAccess_keeps_keyv_clear {s : State} (h : s.keyv = false) (a : Access) :
    (performAccess a s).keyv = false := by
  obtain hv | ⟨-, -, hv⟩ := performAccess_keyv a s
  · exact hv.trans h
  · exact hv

/-! ### Reset (R270) -/

/-- R41: a reset cycle leaves RK free, the model's own fields to the model, and resets the rest. -/
theorem resetCycle_frame (a : Option Access) (s : State) :
    resetCycle a s = { State.reset with
      rk := (resetCycle a s).rk, inputs := s.inputs, reads := (resetCycle a s).reads
      draws := (resetCycle a s).draws } := by
  match a with
  | none | some (.write _ _) | some (.read _) => rfl

/-! ### The step -/

/-- Everything a step can do, an empty queue being a turn of the core: a turn of the core, an access, or a reset
cycle, in the state from whose queue the event was taken. -/
theorem step_by_agent {s t : State} (h : step s = .next t) : ∃ rest,
    coreTurn { s with inputs := rest } = .next t ∨
      (∃ a, s.inputs = .access a :: rest ∧ t = performAccess a { s with inputs := rest }) ∨
      (∃ a, s.inputs = .reset a :: rest ∧ t = resetCycle a { s with inputs := rest }) := by
  obtain ⟨hi, h⟩ | ⟨rest, -, h⟩ | ⟨a, rest, hi, h⟩ | ⟨a, rest, hi, h⟩ := step_cases h
  · exact ⟨s.inputs, .inl h⟩
  · exact ⟨rest, .inl h⟩
  · exact ⟨rest, .inr (.inl ⟨a, hi, h⟩)⟩
  · exact ⟨rest, .inr (.inr ⟨a, hi, h⟩)⟩

/-- R245, R248: a step answers a state, and takes its event from the queue. -/
theorem step_answers (s : State) : ∃ t, step s = .next t ∧ t.inputs = s.inputs.tail := by
  cases hi : s.inputs with
  | nil =>
    obtain ⟨t, h⟩ := coreTurn_answers s
    exact ⟨t, (step_nil hi).trans h, by rw [coreTurn_frame h]; exact hi⟩
  | cons e rest =>
    rw [step_cons hi]
    cases e with
    | access a => exact ⟨_, rfl, by rw [performAccess_frame]; rfl⟩
    | coreTurn =>
      obtain ⟨t, h⟩ := coreTurn_answers { s with inputs := rest }
      exact ⟨t, h, by rw [coreTurn_frame h]; rfl⟩
    | reset a => exact ⟨_, rfl, by rw [resetCycle_frame]; rfl⟩

end Sys2Proof.Machine
end

section
/-!
The invariant of the machine (R29, R33, R35, R43, R243, R245): reset has it and every event keeps it.
-/

namespace Sys2Proof.Machine

/-! ### States that meet the invariant -/

/-- An idle core meets the invariant as soon as KEYV = 1 stands for a complete schedule (R29). -/
theorem invariant_of_idle {t : State} (hp : t.pend = none) (hk : t.keyv = true → ∃ k, t.rk = expand k) : Invariant t :=
  ⟨hk, by simp [hp], by simp [hp], by simp [hp], by simp [hp]⟩

/-- The invariant does not speak of the operand and result registers, of OVR or of the model's own fields. -/
theorem Invariant.frame {s : State} (h : Invariant s) (key iv din st chain : Block) (ovr : Bool) (inputs : List Event)
    (reads : List (BitVec 8 × Word)) (draws : Nat) :
    Invariant { s with
      key := key, iv := iv, din := din, st := st, chain := chain, ovr := ovr, inputs := inputs, reads := reads
      draws := draws } :=
  ⟨h.schedule, h.pendingRuns, h.expanding, h.pendingNotDone, h.pendingNoError⟩

/-! ### Every event keeps it -/

/-- R28, R29: an effect leaves RK and KEYV, or it writes a complete schedule. -/
theorem effect_keeps_schedule {s : State} (h : s.keyv = true → ∃ k, s.rk = expand k) (i : Instr)
    (hk : (effect i s).keyv = true) : ∃ k, (effect i s).rk = expand k := by
  obtain ⟨hrk, hkeyv⟩ | ⟨-, hrk, -⟩ := effect_schedule i s
  · exact hrk ▸ h (hkeyv ▸ hk)
  · exact ⟨s.key, hrk⟩

/-- R245: in the invariant a pending command completes, and never ends in a refusal. -/
theorem coreTurn_keeps_invariant {s t : State} (h : Invariant s) (ht : coreTurn s = .next t) : Invariant t := by
  obtain ⟨-, rfl⟩ | ⟨i, code, hp, hc, rfl⟩ | ⟨i, -, -, rfl⟩ := coreTurn_cases ht
  · exact h
  · simp [h.pendingRuns i hp] at hc
  · exact invariant_of_idle rfl (effect_keeps_schedule h.schedule i)

/-- R241, R243: a refusal leaves the core idle; an acceptance has made every check of the command now pending. -/
theorem presentCommand_keeps_invariant {s : State} (h : Invariant s) (v : Word) : Invariant (presentCommand v s) := by
  obtain ⟨code, -, he⟩ | ⟨i, -, hc, he⟩ := presentCommand_cases v s
  · rw [he]
    exact invariant_of_idle rfl h.schedule
  · rw [he]
    constructor
    · by_cases hi : i = .keyexp
      · simp [hi]
      · simpa [hi] using h.schedule
    · rintro j ⟨⟩
      rwa [refusalCode_acceptCommand]
    · rintro ⟨⟩
      rfl
    · exact fun _ => rfl
    · exact fun _ => rfl

theorem performAccess_keeps_invariant {s : State} (h : Invariant s) (a : Access) : Invariant (performAccess a s) := by
  by_cases hp : s.pend = none
  · cases a with
    | read index => rw [performAccess, busRead_frame]; exact h.frame ..
    | write index v =>
      rw [performAccess, busWrite_idle hp]
      cases locate index with
      | cmd => exact presentCommand_keeps_invariant h v
      | status => rw [writeIdle, writeStatus_eq]; exact h.frame ..
      | key j | iv j | din j => exact h.frame ..
      | dout j | chain j | rkw j | reserved => exact h
  · rw [performAccess_busy (busy_of_pend hp)]
    exact h.frame ..

/-- R41: after a reset cycle the core is idle with KEYV = 0. -/
theorem resetCycle_meets_invariant (a : Option Access) (s : State) : Invariant (resetCycle a s) := by
  rw [resetCycle_frame]
  exact invariant_of_idle rfl nofun

/-- Settles O33, by the agent whose event the step is. -/
theorem everyStepKeepsTheInvariant : Obligations.EveryStepKeepsTheInvariant := by
  intro s t h hs
  obtain ⟨rest, ht | ⟨a, -, rfl⟩ | ⟨a, -, rfl⟩⟩ := step_by_agent hs
  · exact coreTurn_keeps_invariant (h.frame ..) ht
  · exact performAccess_keeps_invariant (h.frame ..) a
  · exact resetCycle_meets_invariant a _

/-- Settles O32: the reset state is idle with KEYV = 0. -/
theorem resetMeetsTheInvariant : Obligations.ResetMeetsTheInvariant := invariant_of_idle rfl nofun

/-- Settles O10: the checks of acceptance still pass (R245), so the completion is the command's effect, and no effect
touches the ERR that acceptance cleared. -/
theorem acceptedCommandNeverFails : Obligations.AcceptedCommandNeverFails := by
  intro s i h hp
  have hx : exec i s = .next (finishCommand (effect i s)) := exec_runs (h.pendingRuns i hp)
  have herr : s.err = .noError := h.pendingNoError (by simp [hp])
  exact ⟨_, hx, by simp [herr], rfl, rfl, coreTurn_keeps_invariant h ((coreTurn_some hp).trans hx)⟩

end Sys2Proof.Machine
end

section
/-!
RK while KEYV = 0 (R28, R29, R64, R67): an event of one run and the same event of a run with another RK and another
record of reads end in states that differ in no more than that.
-/

namespace Sys2Proof.Machine

/-- The state with another schedule and another record of reads. -/
def withScheduleReads (rk : Schedule) (reads : List (BitVec 8 × Word)) (s : State) : State :=
  { s with rk := rk, reads := reads }

theorem sameButSchedule_iff {s t : State} : sameButSchedule s t ↔ t = withScheduleReads t.rk t.reads s := eq_comm

theorem sameButSchedule_withScheduleReads (rk : Schedule) (reads : List (BitVec 8 × Word)) (s : State) :
    sameButSchedule s (withScheduleReads rk reads s) := rfl

section
variable (rk : Schedule) (reads : List (BitVec 8 × Word))

/-- The checks do not read RK. -/
@[simp] theorem refusalCode_withScheduleReads (i : Instr) (s : State) :
    refusalCode i (withScheduleReads rk reads s) = refusalCode i s := refusalCode_congr i rfl rfl

/-- R67: while KEYV = 0 a read of RKW is a draw, so no exact read shows RK. -/
theorem readExact_withScheduleReads {s : State} (hk : s.keyv = false) (l : Location) :
    readExact (withScheduleReads rk reads s) l = readExact s l := by
  cases l with
  | rkw i => simp [readExact, withScheduleReads, hk]
  | cmd | status | key j | iv j | din j | dout j | chain j | reserved => rfl

/-- R64: while KEYV = 0 a read records a value in both runs, or draws in both. -/
theorem busRead_withScheduleReads {s : State} (hk : s.keyv = false) (index : BitVec 8) :
    sameButSchedule (busRead index s) (busRead index (withScheduleReads rk reads s)) := by
  unfold busRead
  rw [readExact_withScheduleReads rk reads hk]
  cases readExact s (locate index) <;> rfl

/-- R242: the checks and the answer to a CMD write do not read RK. -/
theorem presentCommand_withScheduleReads (v : Word) (s : State) :
    presentCommand v (withScheduleReads rk reads s) = withScheduleReads rk reads (presentCommand v s) := by
  cases hd : decode v with
  | reject e => simp only [presentCommand, hd]; rfl
  | command i =>
    cases hc : refusalCode i s <;> simp only [presentCommand, hd, refusalCode_withScheduleReads, hc] <;> rfl

theorem busWrite_withScheduleReads (index : BitVec 8) (v : Word) (s : State) :
    busWrite index v (withScheduleReads rk reads s) = withScheduleReads rk reads (busWrite index v s) := by
  have hs : writeStatus v (withScheduleReads rk reads s) = withScheduleReads rk reads (writeStatus v s) := by
    simp only [writeStatus_eq]; rfl
  by_cases hp : s.pend = none
  · rw [busWrite_idle hp, busWrite_idle (s := withScheduleReads rk reads s) hp]
    cases locate index with
    | cmd => exact presentCommand_withScheduleReads rk reads v s
    | status => exact hs
    | key j | iv j | din j | dout j | chain j | rkw j | reserved => rfl
  · rw [busWrite_busy (busy_of_pend hp), busWrite_busy (s := withScheduleReads rk reads s) (busy_of_pend hp)]
    cases locate index with
    | status => exact hs
    | cmd | key j | iv j | din j | dout j | chain j | rkw j | reserved => rfl

theorem performAccess_withScheduleReads {s : State} (hk : s.keyv = false) (a : Access) :
    sameButSchedule (performAccess a s) (performAccess a (withScheduleReads rk reads s)) := by
  cases a with
  | read index => exact busRead_withScheduleReads rk reads hk index
  | write index v =>
    rw [performAccess, performAccess, busWrite_withScheduleReads]
    rfl

/-- R270: a reset cycle leaves RK unspecified in both runs. -/
theorem resetCycle_withScheduleReads (a : Option Access) (s : State) :
    sameButSchedule (resetCycle a s) (resetCycle a (withScheduleReads rk reads s)) := by
  match a with
  | none | some (.write _ _) | some (.read _) => rfl

/-- R93: with KEYV = 0 a command whose checks pass reads no RK; its effect leaves RK as it was, or writes the same
expansion of KEY in both runs. -/
theorem effect_withScheduleReads {s : State} {i : Instr} (hk : s.keyv = false) (hc : refusalCode i s = none) :
    sameButSchedule (effect i s) (effect i (withScheduleReads rk reads s)) ∧
      ((effect i s).keyv = true → (effect i s).rk = (effect i (withScheduleReads rk reads s)).rk) := by
  have hn : needsKey i = true → s.keyv = true := (refusalCode_eq_none.mp hc).2.1
  cases i with
  | keyexp => exact ⟨by simp only [effect]; rfl, fun _ => by simp only [effect]; rfl⟩
  | enc | dec | ark r => simp [hk, needsKey] at hn
  | nop | chinit | ldst | sub | invsub | shr | invshr | mix | invmix | arkc =>
    exact ⟨rfl, by simp [effect, hk]⟩

/-- R40, R245: in the invariant, with KEYV = 0, a turn of the core does the same in both runs. -/
theorem coreTurn_withScheduleReads {s : State} (h : Invariant s) (hk : s.keyv = false) :
    ∃ s' t', coreTurn s = .next s' ∧ coreTurn (withScheduleReads rk reads s) = .next t' ∧ sameButSchedule s' t' ∧
      (s'.keyv = true → s'.rk = t'.rk) := by
  cases hp : s.pend with
  | none => exact ⟨_, _, coreTurn_none hp, coreTurn_none hp, rfl, by simp [hk]⟩
  | some i =>
    have hc : refusalCode i s = none := h.pendingRuns i hp
    obtain ⟨hsame, hrk⟩ := effect_withScheduleReads rk reads hk hc
    have hc' : refusalCode i (withScheduleReads rk reads s) = none := by rwa [refusalCode_withScheduleReads]
    exact ⟨_, _, (coreTurn_some hp).trans (exec_runs hc),
      (coreTurn_some (s := withScheduleReads rk reads s) hp).trans (exec_runs hc'), congrArg finishCommand hsame, hrk⟩

end

/-- Settles O41: the agents' events one by one. Only a turn of the core sets KEYV, and with it RK. -/
theorem scheduleUnusedWithoutKeyv : Obligations.ScheduleUnusedWithoutKeyv := by
  intro s t h hk hst
  obtain ⟨rk, reads, rfl⟩ : ∃ rk reads, t = withScheduleReads rk reads s := ⟨_, _, sameButSchedule_iff.mp hst⟩
  refine ⟨fun l => (readExact_withScheduleReads rk reads hk l).symm, ?_⟩
  cases hi : s.inputs with
  | nil =>
    rw [step_nil hi, step_nil (s := withScheduleReads rk reads s) hi]
    exact coreTurn_withScheduleReads rk reads h hk
  | cons e rest =>
    have hk0 : { s with inputs := rest }.keyv = false := hk
    rw [step_cons hi, step_cons (s := withScheduleReads rk reads s) hi]
    cases e with
    | coreTurn => exact coreTurn_withScheduleReads rk reads (h.frame ..) hk0
    | access a =>
      have hk' := performAccess_keeps_keyv_clear hk0 a
      exact ⟨_, _, rfl, rfl, performAccess_withScheduleReads rk reads hk0 a, fun hv => by simp [hk'] at hv⟩
    | reset a =>
      refine ⟨_, _, rfl, rfl, resetCycle_withScheduleReads rk reads a { s with inputs := rest }, ?_⟩
      rw [resetCycle_frame]
      exact nofun

end Sys2Proof.Machine
end

section
/-!
Who writes what (R22 to R30, R34), the reset cycle (R270), and the end of a run (R40, R283): whole-machine rules, each
from what the agents' events can do.
-/

namespace Sys2Proof.Machine

/-! ### Overrun (R34) -/

/-- R34, R66: a dropped write sets OVR. -/
theorem busWrite_dropped_sets_ovr {s : State} {index : BitVec 8} (hp : s.pend ≠ none) (hd : droppedWhileBusy index)
    (v : Word) : (busWrite index v s).ovr = true := by
  obtain ⟨h1, -⟩ | ⟨-, -, h⟩ | ⟨-, hn, -⟩ := busWrite_ovr index v s
  · unfold droppedWhileBusy at hd
    omega
  · exact h
  · exact absurd ⟨hp, hd⟩ hn

/-- R34: a STATUS write with bit 4 = 1 clears OVR. -/
theorem busWrite_status_clears_ovr {index : BitVec 8} {v : Word} (h1 : index.toNat = 1) (hv : v.getLsbD 4 = true)
    (s : State) : (busWrite index v s).ovr = false := by
  obtain ⟨-, h⟩ | ⟨-, hd, -⟩ | ⟨hn, -, -⟩ := busWrite_ovr index v s
  · simp [h, hv]
  · unfold droppedWhileBusy at hd
    omega
  · exact absurd h1 hn

/-- Settles O13: `busWrite_ovr` says what a write does; a turn of the core and a read leave OVR, a reset clears it. -/
theorem ovrIsSetByDropsAndClearedOnlyOnRequest : Obligations.OvrIsSetByDropsAndClearedOnlyOnRequest := by
  refine ⟨?_, ?_, ?_⟩
  · intro s t index v rest hi hs
    obtain rfl : busWrite index v { s with inputs := rest } = t := by
      simpa [step_cons hi, runEvent, performAccess] using hs
    exact ⟨fun hp hd => busWrite_dropped_sets_ovr (s := { s with inputs := rest }) hp hd v,
      fun h1 hv => busWrite_status_clears_ovr h1 hv _⟩
  · intro s t a rest hi hs
    obtain rfl : resetCycle a { s with inputs := rest } = t := by simpa [step_cons hi, runEvent] using hs
    rw [resetCycle_frame]
    rfl
  · intro s t hs
    obtain ⟨rest, ht | ⟨a, hi, rfl⟩ | ⟨a, hi, rfl⟩⟩ := step_by_agent hs
    · rw [coreTurn_frame ht]
      simp +contextual
    · cases a with
      | read index =>
        rw [performAccess, busRead_frame]
        simp +contextual
      | write index v =>
        rw [performAccess]
        obtain ⟨h1, h⟩ | ⟨hp, hd, h⟩ | ⟨-, -, h⟩ := busWrite_ovr index v { s with inputs := rest } <;> rw [h]
        · obtain rfl : index = 1 := BitVec.eq_of_toNat_eq h1
          simp +contextual [hi]
        · exact ⟨fun _ _ => ⟨hp, index, v, rest, hi, hd⟩, nofun⟩
        · simp +contextual
    · rw [resetCycle_frame]
      exact ⟨nofun, fun _ _ => .inr ⟨a, rest, hi⟩⟩

/-! ### Registers (R22 to R28) -/

/-- Settles O38: no command writes an operand register, and `busWrite_operands` says which writes do. -/
theorem operandRegistersChangeOnlyByHostWrites : Obligations.OperandRegistersChangeOnlyByHostWrites := by
  intro s t hs hr
  obtain ⟨rest, ht | ⟨a, hi, rfl⟩ | ⟨a, hi, -⟩⟩ := step_by_agent hs
  · rw [coreTurn_frame ht]
    simp
  · cases a with
    | read index =>
      rw [performAccess, busRead_frame]
      simp
    | write index v =>
      obtain ⟨hkey, hiv, hdin⟩ := busWrite_operands index v { s with inputs := rest }
      refine ⟨fun hne => ?_, fun hne => ?_, fun hne => ?_⟩
      · obtain ⟨hp, h⟩ := hkey.resolve_left hne
        exact ⟨hp, index, v, rest, hi, h⟩
      · obtain ⟨hp, h⟩ := hiv.resolve_left hne
        exact ⟨hp, index, v, rest, hi, h⟩
      · obtain ⟨hp, h⟩ := hdin.resolve_left hne
        exact ⟨hp, index, v, rest, hi, h⟩
  · exact absurd hi (hr a rest)

/-- R26, R27: the commands that write ST, and those that write CHAIN. -/
theorem effect_results (i : Instr) (s : State) :
    ((effect i s).st = s.st ∨
      (i ∈ [.enc, .dec, .ldst, .sub, .invsub, .shr, .invshr, .mix, .invmix, .arkc] ∨ ∃ r, i = .ark r)) ∧
    ((effect i s).chain = s.chain ∨ i ∈ [.chinit, .enc, .dec]) := by
  cases i <;> simp [effect]

/-- Settles O39: no access writes a result register; `effect_results` and `effect_schedule` say which commands do. -/
theorem resultRegistersChangeOnlyByTheirCommands : Obligations.ResultRegistersChangeOnlyByTheirCommands := by
  intro s t hs hr
  obtain ⟨rest, ht | ⟨a, hi, rfl⟩ | ⟨a, hi, -⟩⟩ := step_by_agent hs
  · obtain ⟨-, rfl⟩ | ⟨i, code, -, -, rfl⟩ | ⟨i, hp, -, rfl⟩ := coreTurn_cases ht
    · simp
    · simp
    · obtain ⟨hst, hchain⟩ := effect_results i { s with inputs := rest }
      refine ⟨fun hne => ⟨i, hp, rfl, hst.resolve_left hne⟩, fun hne => ⟨i, hp, rfl, hchain.resolve_left hne⟩,
        fun hne => ?_⟩
      obtain ⟨hrk, -⟩ | ⟨rfl, -, -⟩ := effect_schedule i { s with inputs := rest }
      · exact absurd hrk hne
      · exact ⟨hp, rfl⟩
  · rw [performAccess_frame]
    simp
  · exact absurd hi (hr a rest)

/-! ### Validity bits (R29, R30) -/

/-- Settles O40: of the commands only KEYEXP and CHINIT write a validity bit, and of the accesses only the acceptance of
a KEYEXP. -/
theorem validityBitsChangeOnlyByTheirCommands : Obligations.ValidityBitsChangeOnlyByTheirCommands := by
  intro s t hs
  obtain ⟨rest, ht | ⟨a, hi, rfl⟩ | ⟨a, hi, rfl⟩⟩ := step_by_agent hs
  · obtain ⟨-, rfl⟩ | ⟨i, code, -, -, rfl⟩ | ⟨i, hp, -, rfl⟩ := coreTurn_cases ht
    · simp +contextual
    · simp +contextual
    · have hkeyv : (effect i { s with inputs := rest }).keyv = s.keyv ∨
          (s.pend = some .keyexp ∧ (effect i { s with inputs := rest }).keyv = true) := by
        obtain ⟨-, h⟩ | ⟨rfl, -, h⟩ := effect_schedule i { s with inputs := rest }
        · exact .inl h
        · exact .inr ⟨hp, h⟩
      have hchv : (effect i { s with inputs := rest }).chv = s.chv ∨
          (s.pend = some .chinit ∧ (effect i { s with inputs := rest }).chv = true) := by
        obtain h | ⟨rfl, h⟩ := effect_chv i { s with inputs := rest }
        · exact .inl h
        · exact .inr ⟨hp, h⟩
      simp only [finishCommand_keyv, finishCommand_chv, finishCommand_pend]
      grind
  · have hc : (performAccess a { s with inputs := rest }).chv = s.chv := by rw [performAccess_frame]
    rw [hc]
    obtain hk | ⟨hp, hpend, hk⟩ := performAccess_keyv a { s with inputs := rest }
    · rw [hk]
      simp +contextual
    · rw [hk, hpend]
      simp +contextual [show s.pend = none from hp]
  · rw [resetCycle_frame]
    simp [State.reset, hi]

/-! ### Reset (R270, R271) -/

/-- Settles O17: a reset cycle resets the registers whatever access it comes with, and only a read is recorded. -/
theorem resetCycleFromAnyState : Obligations.ResetCycleFromAnyState := by
  intro s a rest hi
  refine ⟨resetCycle a { s with inputs := rest }, step_cons hi, ?_⟩
  match a with
  | none | some (.write _ _) => simp [resetCycle_quiet, resetCycle_write]
  | some (.read index) => simp [resetCycle_read]

/-! ### The end of a run (R40, R283) -/

theorem runSteps_succ {s t : State} (h : step s = .next t) (n : Nat) : runSteps (n + 1) s = runSteps n t := by
  simp [runSteps, Host.Core.run, core, h]

/-- Settles O34, by induction on the queued events: each step takes one, and the step after the last is a turn of the
core, which leaves nothing pending. -/
theorem everyRunEndsIdle : Obligations.EveryRunEndsIdle := by
  intro s
  generalize hn : s.inputs.length = n
  induction n generalizing s with
  | zero =>
    have hi : s.inputs = [] := List.eq_nil_of_length_eq_zero hn
    obtain ⟨t, ht, hq⟩ := step_answers s
    have hcore : coreTurn s = .next t := (step_nil hi).symm.trans ht
    exact ⟨t, runSteps_succ ht 0, by rw [hq, hi]; rfl, coreTurn_pend hcore⟩
  | succ n ih =>
    obtain ⟨t, ht, hq⟩ := step_answers s
    rw [runSteps_succ ht]
    exact ih t (by rw [hq, List.length_tail, hn]; rfl)

end Sys2Proof.Machine
end

section
/-!
Each command's completion: its result and its frame (R40, R160 to R171, R211 to R213, R230, R232), and the layout of
STATUS (R31, R240).
-/

namespace Sys2Proof.Machine

/-! ### STATUS (R31, R240) and the reset state (R41) -/

/-- Settles O15: the word is made of bits, so each choice of them is a closed fact. -/
theorem statusLayout : Obligations.StatusLayout := by
  intro s
  unfold statusWord busy
  generalize s.pend.isSome = busy
  generalize s.done = done
  generalize s.keyv = keyv
  generalize s.chv = chv
  generalize s.ovr = ovr
  cases s.err <;> revert busy done keyv chv ovr <;> decide

/-- Settles O16. -/
theorem resetStateValues : Obligations.ResetStateValues := ⟨rfl, rfl, rfl, rfl, rfl, by decide, rfl⟩

/-! ### Commands without a check to pass -/

/-- Settles O18: NOP has no effect. -/
theorem nopCompletes : Obligations.NopCompletes := fun _ => exec_runs rfl

/-- Settles O19. -/
theorem ldstLoadsDin : Obligations.LdstLoadsDin := fun _ => exec_runs rfl

/-- Settles O20. -/
theorem chinitTakesIv : Obligations.ChinitTakesIv := fun _ => exec_runs rfl

/-- Settles O22, cell by cell. -/
theorem substitutionCommandsMapEachByte : Obligations.SubstitutionCommandsMapEachByte :=
  ⟨fun _ => ⟨_, exec_runs rfl, rfl, cell_subBytes _⟩, fun _ => ⟨_, exec_runs rfl, rfl, cell_invSubBytes _⟩⟩

/-- Settles O23: column `c + r`, or `c - r`, of `Fin 4` is the column R164 names. -/
theorem shiftCommandsRotateRows : Obligations.ShiftCommandsRotateRows := by
  constructor
  · intro s
    refine ⟨_, exec_runs rfl, rfl, fun r c d h => ?_⟩
    obtain rfl : d = c + r := Fin.ext (by rw [h, Fin.val_add])
    exact cell_shiftRows ..
  · intro s
    refine ⟨_, exec_runs rfl, rfl, fun r c d h => ?_⟩
    obtain rfl : d = c - r := Fin.ext (by rw [h, Fin.val_sub]; omega)
    exact cell_invShiftRows ..

/-! ### The mixing matrices, row by row (R167) -/

/-- R122: the factor 01 of R167's rows is left out there. -/
theorem gmul_one_left (a : Byte) : gmul 1 a = a := by
  revert a
  decide +kernel

/-- R133: MIX_M, written out by rows. -/
theorem mixMatrix_rows :
    (mixMatrix 0 0 = 2 ∧ mixMatrix 0 1 = 3 ∧ mixMatrix 0 2 = 1 ∧ mixMatrix 0 3 = 1) ∧
    (mixMatrix 1 0 = 1 ∧ mixMatrix 1 1 = 2 ∧ mixMatrix 1 2 = 3 ∧ mixMatrix 1 3 = 1) ∧
    (mixMatrix 2 0 = 1 ∧ mixMatrix 2 1 = 1 ∧ mixMatrix 2 2 = 2 ∧ mixMatrix 2 3 = 3) ∧
    (mixMatrix 3 0 = 3 ∧ mixMatrix 3 1 = 1 ∧ mixMatrix 3 2 = 1 ∧ mixMatrix 3 3 = 2) := by decide

/-- R134: INVMIX_M, written out by rows. -/
theorem invMixMatrix_rows :
    (invMixMatrix 0 0 = 14 ∧ invMixMatrix 0 1 = 11 ∧ invMixMatrix 0 2 = 13 ∧ invMixMatrix 0 3 = 9) ∧
    (invMixMatrix 1 0 = 9 ∧ invMixMatrix 1 1 = 14 ∧ invMixMatrix 1 2 = 11 ∧ invMixMatrix 1 3 = 13) ∧
    (invMixMatrix 2 0 = 13 ∧ invMixMatrix 2 1 = 9 ∧ invMixMatrix 2 2 = 14 ∧ invMixMatrix 2 3 = 11) ∧
    (invMixMatrix 3 0 = 11 ∧ invMixMatrix 3 1 = 13 ∧ invMixMatrix 3 2 = 9 ∧ invMixMatrix 3 3 = 14) := by decide

/-- R133, R167: the four rows of MixColumns, written out. -/
theorem cell_mixColumns_rows (s : Block) (c : Fin 4) :
    cell (mixColumns s) 0 c = gmul 2 (cell s 0 c) ^^^ gmul 3 (cell s 1 c) ^^^ cell s 2 c ^^^ cell s 3 c ∧
    cell (mixColumns s) 1 c = cell s 0 c ^^^ gmul 2 (cell s 1 c) ^^^ gmul 3 (cell s 2 c) ^^^ cell s 3 c ∧
    cell (mixColumns s) 2 c = cell s 0 c ^^^ cell s 1 c ^^^ gmul 2 (cell s 2 c) ^^^ gmul 3 (cell s 3 c) ∧
    cell (mixColumns s) 3 c = gmul 3 (cell s 0 c) ^^^ cell s 1 c ^^^ cell s 2 c ^^^ gmul 2 (cell s 3 c) := by
  simp only [cell_mixColumns, dotColumn, mixMatrix_rows, gmul_one_left, and_self]

/-- R134, R167: the four rows of InvMixColumns, written out. -/
theorem cell_invMixColumns_rows (s : Block) (c : Fin 4) :
    cell (invMixColumns s) 0 c =
      gmul 14 (cell s 0 c) ^^^ gmul 11 (cell s 1 c) ^^^ gmul 13 (cell s 2 c) ^^^ gmul 9 (cell s 3 c) ∧
    cell (invMixColumns s) 1 c =
      gmul 9 (cell s 0 c) ^^^ gmul 14 (cell s 1 c) ^^^ gmul 11 (cell s 2 c) ^^^ gmul 13 (cell s 3 c) ∧
    cell (invMixColumns s) 2 c =
      gmul 13 (cell s 0 c) ^^^ gmul 9 (cell s 1 c) ^^^ gmul 14 (cell s 2 c) ^^^ gmul 11 (cell s 3 c) ∧
    cell (invMixColumns s) 3 c =
      gmul 11 (cell s 0 c) ^^^ gmul 13 (cell s 1 c) ^^^ gmul 9 (cell s 2 c) ^^^ gmul 14 (cell s 3 c) := by
  simp only [cell_invMixColumns, dotColumn, invMixMatrix_rows, and_self]

/-- Settles O24, column by column. -/
theorem mixCommandsMultiplyColumns : Obligations.MixCommandsMultiplyColumns :=
  ⟨fun s => ⟨_, exec_runs rfl, rfl, cell_mixColumns_rows s.st⟩,
    fun s => ⟨_, exec_runs rfl, rfl, cell_invMixColumns_rows s.st⟩⟩

/-! ### Commands that need KEYV or CHV (R93) -/

/-- R143, R170: ARK names round key `r` itself when `r` is legal. -/
theorem arkRoundKey_of_le (rk : Schedule) {r : BitVec 4} (hr : r.toNat ≤ 10) :
    arkRoundKey rk r = ⟨rk[4 * r.toNat], rk[4 * r.toNat + 1], rk[4 * r.toNat + 2], rk[4 * r.toNat + 3]⟩ := by
  have hmod : r.toNat % 11 = r.toNat := Nat.mod_eq_of_lt (by omega)
  simp [arkRoundKey, roundKey, Fin.ofNat, hmod]

/-- Settles O25: the round key's number is legal (R94) and KEYV = 1. -/
theorem arkAddsRoundKey : Obligations.ArkAddsRoundKey := by
  intro s r hr hk
  have hc : refusalCode (.ark r) s = none :=
    refusalCode_eq_none.mpr ⟨decide_eq_true hr, fun _ => hk, nofun⟩
  rw [exec_runs hc, effect, arkRoundKey_of_le s.rk hr, addRoundKey_words]
  rfl

/-- Settles O26. -/
theorem arkcAddsChain : Obligations.ArkcAddsChain := by
  intro s hv
  have hc : refusalCode .arkc s = none := refusalCode_eq_none.mpr ⟨rfl, nofun, fun _ => hv⟩
  rw [exec_runs hc, effect, addRoundKey_words]
  rfl

/-- Settles O27. -/
theorem encEncryptsAndChains : Obligations.EncEncryptsAndChains := by
  intro s hk hv
  have hc : refusalCode .enc s = none := refusalCode_eq_none.mpr ⟨rfl, fun _ => hk, fun _ => hv⟩
  exact ⟨_, rfl, exec_runs hc⟩

/-- Settles O28. -/
theorem decDecryptsAndChains : Obligations.DecDecryptsAndChains := by
  intro s hk hv
  exact exec_runs (refusalCode_eq_none.mpr ⟨rfl, fun _ => hk, fun _ => hv⟩)

end Sys2Proof.Machine
end

section
/-!
`run C` over the bus (R100, R101, R281): the word of an acceptable command decodes to it, and a `wait` polls until the
completion, whatever turns the agents take.
-/

namespace Sys2Proof.Machine

/-! ### The word of a command (R93) -/

/-- R92, R93: the fields of the word of any command. -/
theorem encode_fields (i : Instr) : Laws.EncodedFields.Statement i := by
  open Laws.EncodedFields in
  cases i with
  | nop => exact nop
  | keyexp => exact keyexp
  | chinit => exact chinit
  | enc => exact enc
  | dec => exact dec
  | ldst => exact ldst
  | sub => exact sub
  | invsub => exact invsub
  | shr => exact shr
  | invshr => exact invshr
  | mix => exact mix
  | invmix => exact invmix
  | ark r => exact ark r
  | arkc => exact arkc

/-- R93, R98: the word of a command with a legal round key decodes to that command. -/
theorem decode_encode {i : Instr} (h : roundKeyLegal i i.rkOperand = true) : decode (encode i) = .command i := by
  obtain ⟨hop, hrk, hlen, hrsv⟩ := encode_fields i
  have hinstr : instrOfOpcode i.opcode i.rkOperand = some i := by cases i <;> rfl
  have hlength : lengthReject i i.lenOperand = none := by cases i <;> rfl
  simp [decode, hop, hrk, hlen, hrsv, hinstr, hlength, h]

/-- R243: the word of a command whose checks pass is accepted. -/
theorem presentCommand_encode {i : Instr} {s : State} (hc : refusalCode i s = none) :
    presentCommand (encode i) s = acceptCommand i s :=
  presentCommand_accepts (decode_encode (refusalCode_eq_none.mp hc).1) hc

/-! ### Turns of a run of `run C` -/

/-- R64: the host has read STATUS. -/
def readStatus (s : State) : State := recordRead 1 (statusWord s) s

/-- R101: the CMD write of `run C` presents the word to an idle core, and the `wait` is left. -/
theorem runProgram_run_host {s : State} (hp : s.pend = none) (v : Word) (turns : List Agent) :
    runProgram (.host :: turns) (run v) s = runProgram turns [.wait] (presentCommand v s) := by
  rw [run, cmd, runProgram_host]
  exact congrArg (runProgram turns [.wait]) (performAccess_write_cmd hp v)

/-- R280: a poll of a busy core reads STATUS and the `wait` goes on. -/
theorem runProgram_wait_busy {s : State} (hp : s.pend ≠ none) (turns : List Agent) :
    runProgram (.host :: turns) [.wait] s = runProgram turns [.wait] (readStatus s) := by
  rw [runProgram_wait, busy_of_pend hp, if_pos rfl, readStatus]

/-- R281: a poll of an idle core reads STATUS, and `run C` is over. -/
theorem runProgram_wait_idle {s : State} (hp : s.pend = none) (turns : List Agent) :
    runProgram (.host :: turns) [.wait] s = .next ([], readStatus s) := by
  have hb : ¬busy s = true := by simp [busy, hp]
  rw [runProgram_wait, if_neg hb]
  exact runProgram_over (s := readStatus s) hp turns

/-- R40: the core's turn completes the pending command. -/
theorem runProgram_core_completes {s : State} {i : Instr} (hp : s.pend = some i) (hc : refusalCode i s = none)
    (turns : List Agent) (p : List HostStatement) :
    runProgram (.core :: turns) p s = runProgram turns p (finishCommand (effect i s)) :=
  runProgram_core ((coreTurn_some hp).trans (exec_runs hc)) turns p

/-- R283: with any number of polls before the completion, a `wait` for a pending command ends. -/
theorem runProgram_wait_polls {s : State} {i : Instr} (hp : s.pend = some i) (hc : refusalCode i s = none)
    (polls : Nat) :
    ∃ u, runProgram (List.replicate polls .host ++ [.core, .host]) [.wait] s = .next ([], u) := by
  induction polls generalizing s with
  | zero => exact ⟨_, (runProgram_core_completes hp hc _ _).trans (runProgram_wait_idle rfl [])⟩
  | succ polls ih =>
    obtain ⟨u, hu⟩ := ih (s := readStatus s) hp hc
    exact ⟨u, (runProgram_wait_busy (by simp [hp]) _).trans hu⟩

/-! ### Runs of `run C` that end -/

/-- A run of `run C` that ends has presented the word, and its `wait` has ended. -/
theorem wait_ends_of_run_ends {s u : State} {v : Word} {turns : List Agent} (hp : s.pend = none)
    (h : runProgram turns (run v) s = .next ([], u)) :
    ∃ turns', runProgram turns' [.wait] (presentCommand v s) = .next ([], u) := by
  induction turns with
  | nil => cases h
  | cons a turns ih =>
    cases a with
    | core => exact ih ((runProgram_core_idle hp ..).symm.trans h)
    | host => exact ⟨turns, (runProgram_run_host hp ..).symm.trans h⟩

/-- R281: a `wait` on an idle core ends with one read of STATUS. -/
theorem wait_end_of_idle {s u : State} {turns : List Agent} (hp : s.pend = none)
    (h : runProgram turns [.wait] s = .next ([], u)) : u = readStatus s := by
  induction turns with
  | nil => cases h
  | cons a turns ih =>
    cases a with
    | core => exact ih ((runProgram_core_idle hp ..).symm.trans h)
    | host =>
      cases (runProgram_wait_idle hp turns).symm.trans h
      rfl

/-- R40, R281: a `wait` for a pending command ends with one read of STATUS after the completion; its polls before that
have only been recorded. -/
theorem wait_end_of_pending {s u : State} {i : Instr} {turns : List Agent} (hp : s.pend = some i)
    (hc : refusalCode i s = none) (h : runProgram turns [.wait] s = .next ([], u)) :
    ∃ reads, u = readStatus (finishCommand (effect i { s with reads := reads })) := by
  induction turns generalizing s with
  | nil => cases h
  | cons a turns ih =>
    cases a with
    | core => exact ⟨s.reads, wait_end_of_idle rfl ((runProgram_core_completes hp hc ..).symm.trans h)⟩
    | host => exact ih (s := readStatus s) hp hc ((runProgram_wait_busy (by simp [hp]) _).symm.trans h)

/-- Log 4: no effect reads the record of reads. -/
theorem effect_with_reads (i : Instr) (s : State) (reads : List (BitVec 8 × Word)) :
    effect i { s with reads := reads } = { effect i s with reads := reads } := by
  cases i <;> simp only [effect]

/-- Settles O36: an accepted command is pending until the core's turn, and a refused word leaves the core idle, so each
run that ends is one of `wait_end_of_pending` or of `wait_end_of_idle`. -/
theorem runCommandOverTheBus : Obligations.RunCommandOverTheBus := by
  constructor
  · intro s i hp hc
    have hpres : presentCommand (encode i) s = acceptCommand i s := presentCommand_encode hc
    have hc' : refusalCode i (acceptCommand i s) = none := (refusalCode_acceptCommand i s).trans hc
    constructor
    · intro polls
      rw [runProgram_run_host hp, hpres]
      exact runProgram_wait_polls rfl hc' polls
    · intro turns u h
      obtain ⟨turns', h'⟩ := wait_ends_of_run_ends hp h
      obtain ⟨reads, rfl⟩ := wait_end_of_pending rfl hc' (hpres ▸ h')
      refine ⟨_, exec_runs hc', ?_⟩
      rw [effect_with_reads i (acceptCommand i s) reads]
      simp [readStatus, sameMachine, sameOperands, statusWord, busy]
  · intro s v hp hq
    refine ⟨?_, fun turns u h => ?_⟩
    · rw [runProgram_run_host hp]
      exact runProgram_wait_idle hq []
    · obtain ⟨turns', h'⟩ := wait_ends_of_run_ends hp h
      exact wait_end_of_idle hq h'

end Sys2Proof.Machine
end

section
/-!
The bus (20_memory.md): what a host write and a host read do at every word index (R62 to R67), and the window in the
system address map (R69, R75).
-/

namespace Sys2Proof.Machine

/-! ### The register map (R62) -/

/-- R62: a word index selects the location that stands at it. -/
theorem locate_of_standsAt {l : Location} {index : BitVec 8} (h : l.standsAt index.toNat) : locate index = l := by
  cases l with
  | cmd =>
    simp only [Location.standsAt] at h
    simp only [locate]
    rw [if_pos (by omega)]
  | status =>
    simp only [Location.standsAt] at h
    simp only [locate]
    rw [if_neg (by omega), if_pos (by omega)]
  | key j | iv j | din j | dout j | chain j =>
    simp only [Location.standsAt] at h
    have hj : Fin.ofNat 4 index.toNat = j := Fin.ext (by simp only [Fin.ofNat]; omega)
    simp only [locate]
    repeat rw [if_neg (by omega)]
    rw [if_pos (by omega), hj]
  | rkw i =>
    simp only [Location.standsAt] at h
    have hi : Fin.ofNat 44 (index.toNat - 64) = i := Fin.ext (by simp only [Fin.ofNat]; omega)
    simp only [locate]
    repeat rw [if_neg (by omega)]
    rw [if_pos (by omega), hi]
  | reserved =>
    simp only [Location.standsAt] at h
    grind [locate]

/-! ### Writes (R63, R65, R66) -/

/-- R34: a STATUS write changes OVR at most. -/
theorem writeStatus_clears_ovr (v : Word) (s : State) :
    writeStatus v s = { s with ovr := if v.getLsbD 4 then false else s.ovr } := by
  unfold writeStatus
  split <;> rfl

/-- R63, R65, R66: the locations whose writes are ignored, BUSY or not. -/
def Location.ignoresWrites (l : Location) : Prop :=
  match l with
  | .dout _ | .chain _ | .rkw _ | .reserved => True
  | .cmd | .status | .key _ | .iv _ | .din _ => False

theorem locate_ignoresWrites {index : BitVec 8} (h : index.toNat = 2 ∨ index.toNat = 3 ∨ 16 ≤ index.toNat) :
    (locate index).ignoresWrites := by
  have hl := locate_standsAt index
  cases hloc : locate index with
  | dout j | chain j | rkw j | reserved => trivial
  | cmd | status | key j | iv j | din j =>
    simp only [hloc, Location.standsAt] at hl
    omega

theorem writeIdle_ignored {l : Location} (h : l.ignoresWrites) (v : Word) (s : State) : writeIdle l v s = s := by
  cases l with
  | dout j | chain j | rkw j | reserved => rfl
  | cmd | status | key j | iv j | din j => exact h.elim

theorem writeBusy_ignored {l : Location} (h : l.ignoresWrites) (v : Word) (s : State) : writeBusy l v s = s := by
  cases l with
  | dout j | chain j | rkw j | reserved => rfl
  | cmd | status | key j | iv j | din j => exact h.elim

/-- R66: a write at the word indexes of CMD, KEY, IV and DIN is dropped. -/
theorem writeBusy_dropped {index : BitVec 8} (h : droppedWhileBusy index) (v : Word) (s : State) :
    writeBusy (locate index) v s = { s with ovr := true } := by
  have hl := locate_standsAt index
  unfold droppedWhileBusy at h
  cases hloc : locate index with
  | cmd | key j | iv j | din j => rfl
  | status | dout j | chain j | rkw j | reserved =>
    simp only [hloc, Location.standsAt] at hl
    omega

section
variable {s : State} {index : BitVec 8} {v : Word} {rest : List Event}

theorem step_write_idle (hi : s.inputs = .access (.write index v) :: rest) (hp : s.pend = none) :
    step s = .next (writeIdle (locate index) v { s with inputs := rest }) := by
  rw [step_cons hi, runEvent, performAccess, busWrite_idle (by exact hp)]

theorem step_write_busy (hi : s.inputs = .access (.write index v) :: rest) (hp : s.pend ≠ none) :
    step s = .next (writeBusy (locate index) v { s with inputs := rest }) := by
  rw [step_cons hi, runEvent, performAccess, busWrite_busy (busy_of_pend (by exact hp))]

end

/-- Settles O11: the location at each word index, and the write R65 makes there. -/
theorem idleWriteByLocation : Obligations.IdleWriteByLocation := by
  intro s index v rest hi hp s0
  have hstep (l : Location) (h : l.standsAt index.toNat) : step s = .next (writeIdle l v s0) :=
    locate_of_standsAt h ▸ step_write_idle hi hp
  refine ⟨hstep .cmd, fun h => ?_, fun j h => ?_, fun j h => ?_, fun j h => ?_, fun h => ?_⟩
  · rw [hstep .status h, writeIdle, writeStatus_clears_ovr]
  · exact ⟨_, hstep (.key j) h, fun n => blockWord_setBlockWord s.key j n v⟩
  · exact ⟨_, hstep (.iv j) h, fun n => blockWord_setBlockWord s.iv j n v⟩
  · exact ⟨_, hstep (.din j) h, fun n => blockWord_setBlockWord s.din j n v⟩
  · rw [step_write_idle hi hp, writeIdle_ignored (locate_ignoresWrites h)]

/-- Settles O12: a write is dropped, is a STATUS write, or is ignored. -/
theorem busyWriteByLocation : Obligations.BusyWriteByLocation := by
  intro s index v rest hi hp s0
  rw [step_write_busy hi hp]
  refine ⟨fun h => ?_, fun h => ?_, fun h => ?_⟩
  · rw [writeBusy_dropped h]
  · rw [locate_of_standsAt (l := .status) h, writeBusy, writeStatus_clears_ovr]
  · rw [writeBusy_ignored (locate_ignoresWrites h)]

/-! ### Reads (R64, R67) -/

section
variable {s : State} {index : BitVec 8} {rest : List Event}

/-- R64: a read whose value the rule gives records that value. -/
theorem step_read_exact {x : Word} (hi : s.inputs = .access (.read index) :: rest)
    (hx : readExact { s with inputs := rest } (locate index) = some x) :
    step s = .next (recordRead index x { s with inputs := rest }) := by
  rw [step_cons hi, runEvent, performAccess, busRead, hx]

/-- R67: a read of `any` records a drawn value. -/
theorem step_read_any (hi : s.inputs = .access (.read index) :: rest)
    (hx : readExact { s with inputs := rest } (locate index) = none) :
    step s = .next (drawRead index { s with inputs := rest }) := by
  rw [step_cons hi, runEvent, performAccess, busRead, hx]

end

/-- R64: ST and CHAIN read exactly while BUSY = 0, and are `any` while BUSY = 1. -/
theorem readExact_result (s : State) (j : Fin 4) :
    readExact s (.dout j) = (if s.pend = none then some (blockWord s.st j) else none) ∧
      readExact s (.chain j) = if s.pend = none then some (blockWord s.chain j) else none := by
  cases hp : s.pend <;> simp [readExact, busy, hp]

/-- R64: RKW reads exactly while BUSY = 0 and KEYV = 1, and is `any` otherwise. -/
theorem readExact_rkw (s : State) (i : Fin 44) :
    readExact s (.rkw i) = if s.pend = none ∧ s.keyv = true then some s.rk[i] else none := by
  cases hp : s.pend <;> cases hk : s.keyv <;> simp [readExact, busy, hp, hk]

/-- Settles O14: the location at each word index, and what R64 reads there. -/
theorem readByLocation : Obligations.ReadByLocation := by
  intro s index rest hi s0 gives any
  have exact_at (l : Location) (h : l.standsAt index.toNat) {x : Word} (hx : readExact s0 l = some x) : gives x :=
    step_read_exact hi ((locate_of_standsAt h).symm ▸ hx)
  have guarded_at (l : Location) (h : l.standsAt index.toNat) {c : Prop} [Decidable c] {x : Word}
      (hx : readExact s0 l = if c then some x else none) : if c then gives x else any := by
    split
    · next hc => exact exact_at l h (hx.trans (if_pos hc))
    · next hc => exact ⟨_, step_read_any hi ((locate_of_standsAt h).symm ▸ hx.trans (if_neg hc))⟩
  exact ⟨fun h => exact_at .cmd h rfl, fun h => exact_at .status h rfl,
    fun j h => exact_at (.key j) h rfl, fun j h => exact_at (.iv j) h rfl, fun j h => exact_at (.din j) h rfl,
    fun j h => guarded_at (.dout j) h (readExact_result s0 j).1,
    fun j h => guarded_at (.chain j) h (readExact_result s0 j).2,
    fun i h => guarded_at (.rkw i) h (readExact_rkw s0 i), fun h => exact_at .reserved h rfl⟩

/-! ### The window (R60, R69, R75) -/

/-- R60: the four byte offsets of a word give its index. -/
theorem wordIndex_byteOffset (index : BitVec 8) {low : Nat} (h : low < 4) :
    wordIndex (BitVec.ofNat 10 (4 * index.toNat + low)) = index := by
  apply BitVec.eq_of_toNat_eq
  have hlt := index.isLt
  simp only [wordIndex, BitVec.extractLsb'_toNat, BitVec.toNat_ofNat, Nat.shiftRight_eq_div_pow]
  omega

/-- Settles O60: a byte offset below 1024 is four times its word index and a rest. -/
theorem windowAddresses : Obligations.WindowAddresses := by
  refine ⟨Nat.mul_mod_right .., fun index low h => ?_, fun address h => ?_⟩
  · have hlt := index.isLt
    have hoffset : Config.coreBase + 4 * index.toNat + low - Config.coreBase = 4 * index.toNat + low := by omega
    rw [systemIndex, if_pos (by omega), hoffset, wordIndex_byteOffset index h]
  · exact if_neg (by omega)

end Sys2Proof.Machine
end

section
/-!
Accesses in runs: the pending command and the accesses made in its BUSY window (R66, R73), and the pseudo-instructions
that write a block (R101).
-/

namespace Sys2Proof.Machine

/-! ### No step stops (R77, R245, R248) -/

/-- Settles O31. -/
theorem everyStepAnswersAState : Obligations.EveryStepAnswersAState := by
  intro s
  obtain ⟨t, h, -⟩ := step_answers s
  exact ⟨t, h⟩

/-! ### The BUSY window (R66, R67, R73) -/

/-- The state with another OVR and other fields of the model's own: all that an access in the BUSY window changes. -/
def withOvrAndRecord (ovr : Bool) (inputs : List Event) (reads : List (BitVec 8 × Word)) (draws : Nat) (s : State) :
    State :=
  { s with ovr := ovr, inputs := inputs, reads := reads, draws := draws }

section
variable (ovr : Bool) (inputs : List Event) (reads : List (BitVec 8 × Word)) (draws : Nat)

theorem sameOperands_withOvrAndRecord (s : State) : sameOperands s (withOvrAndRecord ovr inputs reads draws s) := by
  simp [sameOperands, withOvrAndRecord]

theorem effect_withOvrAndRecord (i : Instr) (s : State) :
    effect i (withOvrAndRecord ovr inputs reads draws s) = withOvrAndRecord ovr inputs reads draws (effect i s) := by
  cases i <;> simp only [effect, withOvrAndRecord]

/-- R73: a completion reads neither OVR nor the model's own fields. -/
theorem exec_withOvrAndRecord {i : Instr} {s t : State} (h : exec i s = .next t) :
    exec i (withOvrAndRecord ovr inputs reads draws s) = .next (withOvrAndRecord ovr inputs reads draws t) := by
  have hcheck : refusalCode i (withOvrAndRecord ovr inputs reads draws s) = refusalCode i s :=
    refusalCode_congr i rfl rfl
  obtain ⟨code, hc, rfl⟩ | ⟨hc, rfl⟩ := exec_cases h
  · rw [exec_eq_completeCommand, completeCommand_refused (hcheck.trans hc)]
    rfl
  · rw [exec_runs (hcheck.trans hc), effect_withOvrAndRecord]
    rfl

end

/-- R66, R67: the step that takes an access in the BUSY window. -/
theorem step_access_busy {s : State} {a : Access} {rest : List Event} (hp : s.pend ≠ none)
    (hi : s.inputs = .access a :: rest) :
    ∃ ovr reads draws, step s = .next (withOvrAndRecord ovr rest reads draws s) := by
  have h := performAccess_busy (s := { s with inputs := rest }) (busy_of_pend hp) a
  exact ⟨_, _, _, (step_cons hi).trans (congrArg Host.Outcome.next h)⟩

/-- R73: the completion after any accesses of the BUSY window, by induction on them. -/
theorem runSteps_busy_window {i : Instr} {s t : State} {as : List Access} {rest : List Event} (hp : s.pend = some i)
    (hi : s.inputs = as.map .access ++ .coreTurn :: rest) (h : exec i s = .next t) :
    ∃ ovr reads draws, runSteps (as.length + 1) s = .next (withOvrAndRecord ovr rest reads draws t) := by
  induction as generalizing s t with
  | nil =>
    have hx := exec_withOvrAndRecord s.ovr rest s.reads s.draws h
    exact ⟨_, _, _, runSteps_succ ((step_coreTurn_of_pend hp hi).trans hx) 0⟩
  | cons a as ih =>
    obtain ⟨ovr, reads, draws, hs⟩ := step_access_busy (by simp [hp]) hi
    obtain ⟨ovr', reads', draws', hr⟩ :=
      ih (s := withOvrAndRecord ovr _ reads draws s) hp rfl (exec_withOvrAndRecord _ _ _ _ h)
    exact ⟨ovr', reads', draws', (runSteps_succ hs _).trans hr⟩

/-- Settles O35: the run ends in the completion's state with another OVR and record. -/
theorem pendingCommandSeesNoAccess : Obligations.PendingCommandSeesNoAccess := by
  intro s t i as rest hp hi h
  obtain ⟨ovr, reads, draws, hr⟩ := runSteps_busy_window hp hi h
  exact ⟨_, hr, sameOperands_withOvrAndRecord .., rfl⟩

/-! ### The pseudo-instructions that write a block (R101) -/

/-- R65, R100: a `wr` on an idle core. -/
theorem runProgram_wr_idle {s : State} {offset : BitVec 10} {l : Location} (hp : s.pend = none)
    (hl : locate (wordIndex offset) = l) (v : Word) (turns : List Agent) (rest : List HostStatement) :
    runProgram (.host :: turns) (.wr offset v :: rest) s = runProgram turns rest (writeIdle l v s) := by
  rw [runProgram_host, statementAccess, performAccess, busWrite_idle hp, hl, remainingProgram]

/-- R101: the four writes of a block, to words `l` of a register, whose writes leave the core idle. -/
theorem runProgram_loadBlock {s : State} {offset : BitVec 10} {l : Fin 4 → Location} (hp : s.pend = none)
    (hl : locate (wordIndex offset) = l 0 ∧ locate (wordIndex (offset + 4)) = l 1 ∧
      locate (wordIndex (offset + 8)) = l 2 ∧ locate (wordIndex (offset + 12)) = l 3)
    (hidle : ∀ j v t, t.pend = none → (writeIdle (l j) v t).pend = none) (b : Block) :
    runProgram (List.replicate 4 .host) (loadBlock offset b) s =
      .next ([], writeIdle (l 3) b.w3 (writeIdle (l 2) b.w2 (writeIdle (l 1) b.w1 (writeIdle (l 0) b.w0 s)))) := by
  obtain ⟨h0, h1, h2, h3⟩ := hl
  have hp1 := hidle 0 b.w0 s hp
  have hp2 := hidle 1 b.w1 _ hp1
  have hp3 := hidle 2 b.w2 _ hp2
  calc runProgram (List.replicate 4 .host) (loadBlock offset b) s
    _ = _ := runProgram_wr_idle hp h0 ..
    _ = _ := runProgram_wr_idle hp1 h1 ..
    _ = _ := runProgram_wr_idle hp2 h2 ..
    _ = _ := runProgram_wr_idle hp3 h3 ..

/-- Settles O37: the four writes replace the four words of the register. -/
theorem loadBlockWritesTheRegister : Obligations.LoadBlockWritesTheRegister := by
  intro s b hp
  refine ⟨?_, ?_, ?_⟩
  · exact runProgram_loadBlock (l := .key) hp (by decide) (fun _ _ _ h => h) b
  · exact runProgram_loadBlock (l := .iv) hp (by decide) (fun _ _ _ h => h) b
  · exact runProgram_loadBlock (l := .din) hp (by decide) (fun _ _ _ h => h) b

end Sys2Proof.Machine
end

section
/-!
The encoding of commands (R90 to R99): the fields of CMD32 as bits, the words the decoder accepts, the words of the
assembler, and the refusals of the meanings (R94, R242).
-/

namespace Sys2Proof.Machine

/-! ### The fields of CMD32 (R91, R92) -/

/-- R92: the word of three fields has them in their places and 0 between them. -/
theorem wordOfFields_eq_append (op : BitVec 6) (rk : BitVec 4) (len : BitVec 8) :
    wordOfFields op rk len = 0#8 ++ len ++ 0#4 ++ rk ++ 0#2 ++ op := by
  ext i hi
  simp only [wordOfFields, BitVec.getElem_or, BitVec.getElem_shiftLeft]
  grind

/-- R91, R92: a word is its three fields in their places, with the bits of RSV between them. -/
theorem word_eq_append_fields (v : Word) :
    v = v.extractLsb' 24 8 ++ lenField v ++ v.extractLsb' 12 4 ++ rkField v ++ v.extractLsb' 6 2 ++ opField v := by
  ext i hi
  simp only [lenField, rkField, opField]
  grind

/-- A concatenation is 0 exactly when both its parts are. -/
theorem append_eq_zero_iff {m n : Nat} {x : BitVec m} {y : BitVec n} : x ++ y = 0 ↔ x = 0 ∧ y = 0 := by
  constructor
  · intro h
    have hx := BitVec.extractLsb'_append_eq_left (a := x) (b := y)
    have hy := BitVec.extractLsb'_append_eq_right (a := x) (b := y)
    rw [h] at hx hy
    exact ⟨by simp [← hx], by simp [← hy]⟩
  · rintro ⟨rfl, rfl⟩
    exact BitVec.zero_append_zero

/-- R92, R96: RSV is 0 exactly when each of its three ranges of bits is. -/
theorem reservedField_eq_zero_iff {v : Word} :
    reservedField v = 0 ↔ v.extractLsb' 24 8 = 0 ∧ v.extractLsb' 12 4 = 0 ∧ v.extractLsb' 6 2 = 0 :=
  append_eq_zero_iff.trans ((and_congr_left' append_eq_zero_iff).trans and_assoc)

/-- R92: a word with RSV = 0 is the word of its fields. -/
theorem wordOfFields_of_reservedField {v : Word} (h : reservedField v = 0) :
    wordOfFields (opField v) (rkField v) (lenField v) = v := by
  obtain ⟨h24, h12, h6⟩ := reservedField_eq_zero_iff.mp h
  have hv := word_eq_append_fields v
  rw [h24, h12, h6] at hv
  exact (wordOfFields_eq_append ..).trans hv.symm

/-- R92: a field is an unsigned integer, read from its bits. -/
theorem toNat_field (v : Word) (start len : Nat) :
    (v.extractLsb' start len).toNat = v.toNat / 2 ^ start % 2 ^ len := by
  rw [BitVec.extractLsb'_toNat, Nat.shiftRight_eq_div_pow]

theorem field_eq_zero_iff {v : Word} {start len : Nat} :
    v.extractLsb' start len = 0 ↔ v.toNat / 2 ^ start % 2 ^ len = 0 := by
  rw [← BitVec.toNat_inj, toNat_field]
  rfl

/-- Settles O4. -/
theorem fieldsAreTheBitsOfTheWord : Obligations.FieldsAreTheBitsOfTheWord := by
  intro v
  have hop := toNat_field v 0 6
  rw [Nat.pow_zero, Nat.div_one] at hop
  have htop : v.toNat / 2 ^ 24 % 2 ^ 8 = v.toNat / 2 ^ 24 := Nat.mod_eq_of_lt (by omega)
  have hrsv := reservedField_eq_zero_iff (v := v)
  rw [field_eq_zero_iff, field_eq_zero_iff, field_eq_zero_iff, htop] at hrsv
  exact ⟨hop, toNat_field v 8 4, toNat_field v 16 8, hrsv, fun h => (wordOfFields_of_reservedField h).symm⟩

/-! ### Decoding and encoding (R93, R98) -/

/-- R98, R242: a word is accepted exactly when every check of the decoder passes. -/
theorem decode_eq_command_iff {v : Word} {i : Instr} :
    decode v = .command i ↔ reservedField v = 0 ∧ instrOfOpcode (opField v) (rkField v) = some i ∧
      roundKeyLegal i (rkField v) = true ∧ lengthReject i (lenField v) = none := by
  unfold decode
  grind

/-- R93: the command of an opcode has that opcode. -/
theorem opcode_of_instrOfOpcode {op : BitVec 6} {rk : BitVec 4} {i : Instr} (h : instrOfOpcode op rk = some i) :
    i.opcode = op := by
  unfold instrOfOpcode at h
  split at h <;> cases h <;> rfl

/-- R93, R94: ARK takes the field RK, and every other command must have 0 there. -/
theorem rkOperand_of_instrOfOpcode {op : BitVec 6} {rk : BitVec 4} {i : Instr} (h : instrOfOpcode op rk = some i)
    (hrk : roundKeyLegal i rk = true) : i.rkOperand = rk := by
  cases i with
  | ark r =>
    unfold instrOfOpcode at h
    split at h <;> cases h
    rfl
  | _ => exact (beq_iff_eq.mp hrk).symm

/-- R95, R146, R220: the field LEN passes exactly when it is the command's length. -/
theorem lengthReject_eq_none_iff {i : Instr} {len : BitVec 8} : lengthReject i len = none ↔ len = i.lenOperand := by
  cases i <;> simp [lengthReject, Instr.lenOperand]

/-- R94: a command is well-formed exactly when its round-key number is legal. -/
theorem roundKeyLegal_rkOperand (i : Instr) : roundKeyLegal i i.rkOperand = i.wf := by
  cases i <;> rfl

/-- Settles O2: the checks leave each field of an accepted word one value, the command's own. -/
theorem decodeAcceptsExactlyEncodings : Obligations.DecodeAcceptsExactlyEncodings := by
  intro v i
  rw [← roundKeyLegal_rkOperand]
  constructor
  · intro h
    obtain ⟨hrsv, hinstr, hlegal, hlen⟩ := decode_eq_command_iff.mp h
    have hop : i.opcode = opField v := opcode_of_instrOfOpcode hinstr
    have hrk : i.rkOperand = rkField v := rkOperand_of_instrOfOpcode hinstr hlegal
    have hlen : lenField v = i.lenOperand := lengthReject_eq_none_iff.mp hlen
    refine ⟨hrk ▸ hlegal, ?_⟩
    rw [encode, hop, hrk, ← hlen, wordOfFields_of_reservedField hrsv]
  · rintro ⟨hlegal, rfl⟩
    exact decode_encode hlegal

/-- Settles O1. -/
theorem decodeInvertsEncode : Obligations.DecodeInvertsEncode := fun i hwf =>
  (decodeAcceptsExactlyEncodings (encode i) i).mpr ⟨hwf, rfl⟩

/-- Settles O5: fifteen closed facts, one for each family of R93 and each refusal. -/
theorem tableWordsDecode : Obligations.TableWordsDecode := by
  unfold Obligations.TableWordsDecode
  decide

/-! ### Words from unsigned integers (R98, R99) -/

/-- R92: the word of an opcode, a round-key number and a length that fit their fields. -/
theorem wordOfFields_ofNat (op : BitVec 6) {r len : Nat} (hr : r ≤ 15) (hlen : len ≤ 255) :
    wordOfFields op (BitVec.ofNat 4 r) (BitVec.ofNat 8 len) =
      op.zeroExtend 32 ||| (BitVec.ofNat 32 len <<< 16 ||| BitVec.ofNat 32 r <<< 8) := by
  have hr' : (BitVec.ofNat 4 r).zeroExtend 32 = BitVec.ofNat 32 r :=
    BitVec.setWidth_ofNat_of_le_of_lt (by omega) (by omega)
  have hlen' : (BitVec.ofNat 8 len).zeroExtend 32 = BitVec.ofNat 32 len :=
    BitVec.setWidth_ofNat_of_le_of_lt (by omega) (by omega)
  rw [wordOfFields, hr', hlen', BitVec.or_comm]

/-- R98, R99: the word of ARK. -/
theorem encode_ark {r : Nat} (hr : r ≤ 15) :
    encode (.ark (BitVec.ofNat 4 r)) = 0x00000016#32 ||| BitVec.ofNat 32 r <<< 8 :=
  (wordOfFields_ofNat 0x16 hr (Nat.zero_le 255)).trans (congrArg _ BitVec.zero_or)

/-- R98: the commands without an operand, one for each of the thirteen words. -/
def operandFree : List Instr :=
  [.nop, .keyexp, .chinit, .enc, .dec, .ldst, .sub, .invsub, .shr, .invshr, .mix, .invmix, .arkc]

/-- R94: the well-formed commands are those without an operand, and ARK with a number 0 to 10. -/
theorem wf_iff {i : Instr} :
    i.wf = true ↔ i ∈ operandFree ∨ ∃ r : Nat, r ≤ 10 ∧ i = .ark (BitVec.ofNat 4 r) := by
  constructor
  · cases i with
    | ark r => exact fun h => .inr ⟨r.toNat, of_decide_eq_true h, by simp⟩
    | _ => exact fun _ => .inl (by decide)
  · rintro (h | ⟨r, hr, rfl⟩)
    · revert i
      decide
    · have hmod : r % 16 = r := Nat.mod_eq_of_lt (by omega)
      simpa [Instr.wf, hmod] using hr

/-- Settles O3: the listed words are the encodings of the well-formed commands. -/
theorem acceptedWordsOfTheDecoder : Obligations.AcceptedWordsOfTheDecoder := by
  intro v
  have hacc : (∃ i, decode v = .command i) ↔ ∃ i, i.wf = true ∧ encode i = v :=
    exists_congr fun i => (decodeAcceptsExactlyEncodings v i).trans (and_congr_right' eq_comm)
  rw [hacc]
  constructor
  · rintro ⟨i, hwf, rfl⟩
    obtain hi | ⟨r, hr, rfl⟩ := wf_iff.mp hwf
    · exact .inl (List.mem_map_of_mem (f := encode) hi)
    · exact .inr ⟨r, hr, encode_ark (by omega)⟩
  · rintro (hv | ⟨r, hr, rfl⟩)
    · obtain ⟨i, hi, hv⟩ := List.mem_map.mp (show v ∈ operandFree.map encode from hv)
      exact ⟨i, wf_iff.mpr (.inl hi), hv⟩
    · exact ⟨_, wf_iff.mpr (.inr ⟨r, hr, rfl⟩), encode_ark (by omega)⟩

/-- R99: a length that fits its field assembles into it. -/
theorem assembleLength_of_le (op : BitVec 6) {len : Nat} (h : len ≤ 255) :
    assembleLength op (some len) = some (op.zeroExtend 32 ||| BitVec.ofNat 32 len <<< 16) := by
  have hword := wordOfFields_ofNat op (Nat.zero_le 15) h
  exact (if_pos h).trans (congrArg some (hword.trans (congrArg _ BitVec.or_zero)))

/-- R99: a longer one does not assemble. -/
theorem assembleLength_of_gt (op : BitVec 6) {len : Nat} (h : 255 < len) : assembleLength op (some len) = none :=
  if_neg (Nat.not_le.mpr h)

/-- R99: ARK assembles with a number that fits its field, and with no other. -/
theorem assemble_ark (r : Nat) :
    assemble (.ark r) = if r ≤ 15 then some (0x00000016#32 ||| BitVec.ofNat 32 r <<< 8) else none := by
  rw [assemble]
  split
  · next hr => rw [encode_ark hr]
  · rfl

/-- Settles O6. -/
theorem assemblerWords : Obligations.AssemblerWords :=
  ⟨fun _ h => ⟨assembleLength_of_le 0x01 h, assembleLength_of_le 0x03 h, assembleLength_of_le 0x04 h⟩,
    fun _ h => ⟨assembleLength_of_gt 0x01 h, assembleLength_of_gt 0x03 h, assembleLength_of_gt 0x04 h⟩,
    rfl, rfl, rfl, assemble_ark, rfl, rfl, rfl, rfl, rfl, rfl, rfl, rfl, rfl, rfl, fun _ => rfl⟩

/-! ### Refusals of the meanings (R94, R240 to R242) -/

/-- R241: a command whose checks fail changes ERR, DONE and PEND alone. -/
theorem exec_refused {i : Instr} {s : State} {code : ErrCode} (h : refusalCode i s = some code) :
    exec i s = .next { s with err := code, done := true, pend := none } :=
  (exec_eq_completeCommand i s).trans (completeCommand_refused h)

/-- R94: an illegal round-key number, before the checks of KEYV and CHV. -/
theorem refusalCode_illegal {i : Instr} {s : State} (h : roundKeyLegal i i.rkOperand = false) :
    refusalCode i s = some .illegalCommand := by
  simp [refusalCode, h]

/-- R242: NO_KEY. -/
theorem refusalCode_noKey {i : Instr} {s : State} (hl : roundKeyLegal i i.rkOperand = true)
    (hn : needsKey i = true) (hk : s.keyv = false) : refusalCode i s = some .noKey := by
  simp [refusalCode, hl, hn, hk]

/-- R242: NO_CHAIN, after the check of KEYV. -/
theorem refusalCode_noChain {i : Instr} {s : State} (hl : roundKeyLegal i i.rkOperand = true)
    (hk : needsKey i = true → s.keyv = true) (hn : needsChain i = true) (hc : s.chv = false) :
    refusalCode i s = some .noChain := by
  simp only [refusalCode]
  grind

/-- Settles O29: each refusal is the first check that fails. -/
theorem unmetPreconditionsRefuse : Obligations.UnmetPreconditionsRefuse := by
  intro s
  refine ⟨fun r hr => ?_, fun hk => ⟨fun r hr => ?_, ?_, ?_⟩, fun hc => ?_, fun hk hc => ⟨?_, ?_⟩⟩
  · exact exec_refused (refusalCode_illegal (decide_eq_false (Nat.not_le.mpr hr)))
  · exact exec_refused (refusalCode_noKey (decide_eq_true hr) rfl hk)
  · exact exec_refused (refusalCode_noKey rfl rfl hk)
  · exact exec_refused (refusalCode_noKey rfl rfl hk)
  · exact exec_refused (refusalCode_noChain rfl nofun rfl hc)
  · exact exec_refused (refusalCode_noChain rfl (fun _ => hk) rfl hc)
  · exact exec_refused (refusalCode_noChain rfl (fun _ => hk) rfl hc)

end Sys2Proof.Machine
end

section
/-!
The arithmetic of GF(2^8) (R120 to R123), the substitution ROMs (R125 to R127) and RotWord (R131).

A map of bytes that is additive and commutes with `xtime` goes through the loop of `gmul`. Multiplication by a fixed
byte is such a map, so products may be reordered: the laws of R121 follow from that and from the identity.
-/

namespace Sys2Proof.Machine

/-! ### xtime and the loop of gmul (R121) -/

/-- R121: what a doubling adds to the shifted byte, by the bit shifted out. -/
def xtimeReduction (carry : Bool) : Byte := if carry then 0x1b else 0

theorem xtimeReduction_xor (b c : Bool) : xtimeReduction (b ^^ c) = xtimeReduction b ^^^ xtimeReduction c := by
  revert b c
  decide

theorem xtime_eq (a : Byte) : xtime a = a <<< 1 ^^^ xtimeReduction (a.getLsbD 7) := by
  rw [xtime, xtimeReduction]
  split
  · rfl
  · exact BitVec.xor_zero.symm

/-- R121: doubling is additive, as the shift, the bit shifted out and the reduction are. -/
theorem xtime_xor (a b : Byte) : xtime (a ^^^ b) = xtime a ^^^ xtime b := by
  simp only [xtime_eq, BitVec.shiftLeft_xor_distrib, BitVec.getLsbD_xor, xtimeReduction_xor]
  ac_rfl

/-- R121: the loop is additive in what it doubles and in its sum together. -/
theorem gmulFrom_xor (c : Byte) (n i : Nat) (a b p q : Byte) :
    gmulFrom c n i (a ^^^ b) (p ^^^ q) = gmulFrom c n i a p ^^^ gmulFrom c n i b q := by
  induction n generalizing i a b p q with
  | zero => rfl
  | succ n ih =>
    simp only [gmulFrom, xtime_xor, ← ih]
    congr 1
    split
    · ac_rfl
    · rfl

/-- R121: multiplication is additive in its first factor. -/
theorem xor_gmul (a b c : Byte) : gmul (a ^^^ b) c = gmul a c ^^^ gmul b c := gmulFrom_xor c 8 0 a b 0 0

/-- R121: an additive map that commutes with doubling goes through the loop. -/
theorem map_gmulFrom {f : Byte → Byte} (hadd : ∀ a b, f (a ^^^ b) = f a ^^^ f b)
    (hx : ∀ a, f (xtime a) = xtime (f a)) (b : Byte) (n i : Nat) (a p : Byte) :
    f (gmulFrom b n i a p) = gmulFrom b n i (f a) (f p) := by
  induction n generalizing i a p with
  | zero => rfl
  | succ n ih => rw [gmulFrom, ih, hx, apply_ite f, hadd, gmulFrom]

/-- R121: such a map goes through a product to its first factor. -/
theorem map_gmul {f : Byte → Byte} (hadd : ∀ a b, f (a ^^^ b) = f a ^^^ f b)
    (hx : ∀ a, f (xtime a) = xtime (f a)) (a b : Byte) : f (gmul a b) = gmul (f a) b := by
  have hzero : f 0 = 0 := by simpa using hadd 0 0
  rw [gmul, map_gmulFrom hadd hx, hzero, gmul]

/-! ### The laws of the product (R121) -/

theorem xtime_gmul (a b : Byte) : gmul (xtime a) b = xtime (gmul a b) :=
  (map_gmul xtime_xor (fun _ => rfl) a b).symm

/-- R121: multiplication by `c` is additive and commutes with doubling. -/
theorem gmul_right_comm (a b c : Byte) : gmul (gmul a b) c = gmul (gmul a c) b :=
  map_gmul (f := (gmul · c)) (xor_gmul · · c) (xtime_gmul · c) a b

/-- R121: both products start from the identity, and their factors may be swapped there. -/
theorem gmul_comm (a b : Byte) : gmul a b = gmul b a := by
  simpa only [gmul_one_left] using gmul_right_comm 1 a b

theorem gmul_assoc (a b c : Byte) : gmul (gmul a b) c = gmul a (gmul b c) :=
  calc gmul (gmul a b) c = gmul (gmul b a) c := by rw [gmul_comm a b]
    _ = gmul (gmul b c) a := gmul_right_comm b a c
    _ = gmul a (gmul b c) := gmul_comm _ _

theorem gmul_xor (a b c : Byte) : gmul a (b ^^^ c) = gmul a b ^^^ gmul a c := by
  rw [gmul_comm, xor_gmul, gmul_comm b, gmul_comm c]

theorem gmul_one (a : Byte) : gmul a 1 = a := (gmul_comm a 1).trans (gmul_one_left a)

/-- R121: `0x00` is `0x00 ^ 0x00`, so its product is the sum of a byte with itself. -/
theorem gmul_zero (a : Byte) : gmul a 0 = 0 := by simpa using gmul_xor a 0 0

/-! ### Inverses (R127)

`sbox(x) = A(x^-1)`, so undoing the affine map `A` on an entry of the ROM gives the inverse of its input. -/

/-- R127: the affine map `A` of the S-box. -/
def sboxAffine (b : Byte) : Byte :=
  b ^^^ b.rotateLeft 1 ^^^ b.rotateLeft 2 ^^^ b.rotateLeft 3 ^^^ b.rotateLeft 4 ^^^ 0x63

/-- R127: the map that undoes `A`. -/
def undoSboxAffine (b : Byte) : Byte := b.rotateLeft 1 ^^^ b.rotateLeft 3 ^^^ b.rotateLeft 6 ^^^ 0x05

theorem sboxAffine_undoSboxAffine (b : Byte) : sboxAffine (undoSboxAffine b) = b := by
  revert b
  decide +kernel

/-- R127: the inverse of a byte under `gmul`, and 0 for 0, read from the ROM. -/
def gmulInverse (a : Byte) : Byte := undoSboxAffine (sbox a)

theorem gmulInverse_zero : gmulInverse 0 = 0 := by decide

/-- R127: each entry of the ROM gives an inverse of its input, checked byte by byte. -/
theorem gmul_gmulInverse (a : Byte) : a ≠ 0 → gmul a (gmulInverse a) = 1 := by
  revert a
  decide +kernel

/-- Settles O42: the laws of the product, and the inverse the ROM gives. -/
theorem gmulIsAFieldProduct : Obligations.GmulIsAFieldProduct :=
  ⟨gmul_comm, gmul_assoc, gmul_xor, gmul_one, gmul_zero, fun a ha => ⟨gmulInverse a, gmul_gmulInverse a ha⟩⟩

/-! ### The products by powers of `x` (R122, R123) -/

theorem gmul_xtime (a b : Byte) : gmul a (xtime b) = xtime (gmul a b) := by
  rw [gmul_comm, xtime_gmul, gmul_comm b]

theorem gmul_two (b : Byte) : gmul b 2 = xtime b :=
  (gmul_xtime b 1).trans (congrArg xtime (gmul_one b))

theorem gmul_four (b : Byte) : gmul b 4 = xtime (xtime b) :=
  (gmul_xtime b 2).trans (congrArg xtime (gmul_two b))

theorem gmul_eight (b : Byte) : gmul b 8 = xtime (xtime (xtime b)) :=
  (gmul_xtime b 4).trans (congrArg xtime (gmul_four b))

/-- Settles O43: each constant is a sum of powers of `x`, and the product distributes over it. -/
theorem mixingProductsByXtime : Obligations.MixingProductsByXtime := by
  intro b
  rw [show (0x03 : Byte) = 2 ^^^ 1 by decide, show (0x09 : Byte) = 8 ^^^ 1 by decide,
    show (0x0b : Byte) = 8 ^^^ 2 ^^^ 1 by decide, show (0x0d : Byte) = 8 ^^^ 4 ^^^ 1 by decide,
    show (0x0e : Byte) = 8 ^^^ 4 ^^^ 2 by decide]
  simp only [gmul_xor, gmul_one, gmul_two, gmul_four, gmul_eight, and_self]

/-! ### The substitution ROMs (R125 to R127) -/

/-- R127: the generating definition of the ROM. -/
theorem sbox_eq_sboxAffine (x : Byte) : sbox x = sboxAffine (gmulInverse x) :=
  (sboxAffine_undoSboxAffine (sbox x)).symm

/-- R127: the ROM of R126 undoes the ROM of R125, entry by entry. -/
theorem invSbox_sbox (x : Byte) : invSbox (sbox x) = x := by
  revert x
  decide +kernel

/-- R127: the ROM of R125 undoes the ROM of R126, entry by entry. -/
theorem sbox_invSbox (x : Byte) : sbox (invSbox x) = x := by
  revert x
  decide +kernel

/-- R127: no fixed and no anti-fixed point, entry by entry. -/
theorem sbox_ne (x : Byte) : sbox x ≠ x ∧ sbox x ≠ x ^^^ 0xff := by
  revert x
  decide +kernel

/-- Settles O44: `y` is the inverse of `x`, 0 for 0. -/
theorem sboxIsTheAffineInverse : Obligations.SboxIsTheAffineInverse := by
  intro x
  obtain ⟨hfixed, hanti⟩ := sbox_ne x
  refine ⟨invSbox_sbox x, sbox_invSbox x, hfixed, hanti, gmulInverse x, ?_, sbox_eq_sboxAffine x⟩
  split
  · next hx => rw [hx, gmulInverse_zero]
  · next hx => exact gmul_gmulInverse x hx

/-! ### RotWord (R131) -/

/-- R131: the 32-bit form. -/
theorem rotWord_eq_shifts (w : Word) : rotWord w = w <<< 8 ||| w >>> 24 := by
  ext i hi
  simp only [rotWord, wordOf, byteOf, BitVec.getElem_or, BitVec.getElem_shiftLeft, BitVec.getElem_ushiftRight]
  grind

/-- R131: the form by bytes. -/
theorem rotWord_wordOf (b0 b1 b2 b3 : Byte) : rotWord (wordOf b0 b1 b2 b3) = wordOf b1 b2 b3 b0 := by
  simp [rotWord]

/-- Settles O45: both forms of R131. -/
theorem rotWordRotatesLeft : Obligations.RotWordRotatesLeft := fun w => ⟨rotWord_eq_shifts w, rotWord_wordOf⟩

end Sys2Proof.Machine
end

section
/-!
The key schedule (41_key_schedule.md): the refusal of a wrong declared length (R146), the recurrence of the expansion
(R140, R145), and the streams of 44_chaining.md that are suspended and resumed (R216).
-/

namespace Sys2Proof.Machine

/-! ### A declared length that is refused (R95, R146, R220, R241) -/

/-- R92: the fields of the word that declares a length for an opcode. -/
theorem fields_of_lengthWord {len op : Nat} (hlen : len < 256) (hop : op < 64) :
    let v : Word := BitVec.ofNat 32 (len * 65536 + op)
    opField v = BitVec.ofNat 6 op ∧ rkField v = 0#4 ∧ lenField v = BitVec.ofNat 8 len ∧ reservedField v = 0 := by
  intro v
  have hv : v.toNat = len * 65536 + op := by
    rw [BitVec.toNat_ofNat]
    omega
  obtain ⟨hopField, hrkField, hlenField, hrsv, -⟩ := fieldsAreTheBitsOfTheWord v
  rw [hv] at hopField hrkField hlenField hrsv
  refine ⟨BitVec.eq_of_toNat_eq ?_, BitVec.eq_of_toNat_eq ?_, BitVec.eq_of_toNat_eq ?_, hrsv.mpr (by omega)⟩
  · rw [hopField, BitVec.toNat_ofNat]
    omega
  · rw [hrkField, BitVec.toNat_zero]
    omega
  · rw [hlenField, BitVec.toNat_ofNat]
    omega

/-- R242: the check of LEN is the decoder's last. -/
theorem decode_rejects_length {v : Word} {i : Instr} {e : Reject} (hrsv : reservedField v = 0)
    (hi : instrOfOpcode (opField v) (rkField v) = some i) (hrk : roundKeyLegal i (rkField v) = true)
    (hlen : lengthReject i (lenField v) = some e) : decode v = .reject e := by
  simp [decode, hrsv, hi, hrk, hlen]

/-- R241, R242: the step that takes a CMD write to an idle core of a word the decoder rejects. -/
theorem step_rejects_word {s : State} {v : Word} {e : Reject} {rest : List Event} (hd : decode v = .reject e)
    (hp : s.pend = none) (hi : s.inputs = .access (.write 0 v) :: rest) :
    step s = .next { s with inputs := rest, err := rejectCode e, done := true } := by
  have hpres : presentCommand v { s with inputs := rest } = raiseCmdError (rejectCode e) { s with inputs := rest } := by
    simp [presentCommand, hd]
  rw [step_cons hi, runEvent, performAccess_write_cmd (by exact hp), hpres, raiseCmdError, ← hp]

/-- Settles O8: the word passes every check before that of its length, which is the decoder's and so reads no validity
bit. -/
theorem wrongKeyLengthIsRefused : Obligations.WrongKeyLengthIsRefused := by
  intro s len rest hlt hne hp hi
  obtain ⟨hop, hrk, hlen, hrsv⟩ := fields_of_lengthWord hlt (op := 1) (by omega)
  have hne' : BitVec.ofNat 8 len ≠ 16 := fun h => hne <| by
    simpa [Nat.mod_eq_of_lt hlt] using congrArg BitVec.toNat h
  have hreject : lengthReject .keyexp (BitVec.ofNat 8 len) = some .keyLength := if_neg hne'
  exact step_rejects_word (decode_rejects_length hrsv (by rw [hop, hrk]; rfl) (by rw [hrk]; rfl)
    (by rw [hlen, hreject])) hp hi

/-! ### The expansion (R140, R141) -/

/-- R141: a word, once formed, stays. -/
theorem getElem_expandWords_succ (k : Block) (n : Nat) {i : Nat} (hi : i < n + 4) :
    (expandWords k (n + 1))[i] = (expandWords k n)[i] := by
  simp [expandWords, Vector.getElem_push_lt hi]

/-- R140: the word formed last. -/
theorem getElem_expandWords_last (k : Block) (n : Nat) :
    (expandWords k (n + 1))[n + 4] = nextWord (n + 4) (expandWords k n)[n] (expandWords k n)[n + 3] := by
  simp [expandWords]

/-- R140: the first four words are the key. -/
theorem expandWords_key (k : Block) (n : Nat) (j : Fin 4) : (expandWords k n)[j.val] = blockWord k j := by
  induction n with
  | zero =>
    match j with
    | 0 | 1 | 2 | 3 => rfl
  | succ n ih => rw [getElem_expandWords_succ k n (by omega), ih]

/-- R140: every later word follows from the word four back and the word one back. -/
theorem expandWords_recurrence (k : Block) (n : Nat) {i : Nat} (h4 : 4 ≤ i) (hi : i < n + 4) :
    (expandWords k n)[i] = nextWord i (expandWords k n)[i - 4] (expandWords k n)[i - 1] := by
  induction n with
  | zero => omega
  | succ n ih =>
    rw [getElem_expandWords_succ k n (i := i - 4) (by omega), getElem_expandWords_succ k n (i := i - 1) (by omega)]
    obtain hlt | rfl : i < n + 4 ∨ i = n + 4 := by omega
    · rw [getElem_expandWords_succ k n hlt, ih hlt]
    · exact getElem_expandWords_last k n

/-- R145: KEYEXP completes in every state. -/
theorem exec_keyexp (s : State) :
    exec .keyexp s = .next { s with rk := expand s.key, keyv := true, pend := none, done := true } := by
  rw [exec_runs rfl, effect, finishCommand]

/-- Settles O21: `expand` is the recurrence taken to word 43. -/
theorem keyexpExpandsKey : Obligations.KeyexpExpandsKey := by
  intro s
  exact ⟨_, exec_keyexp s, rfl, expandWords_key s.key 40 0, expandWords_key s.key 40 1, expandWords_key s.key 40 2,
    expandWords_key s.key 40 3, fun _ h4 hi => expandWords_recurrence s.key 40 h4 hi⟩

/-! ### Streams (R210, R212 to R214) -/

/-- R214: one block of a stream, when its command completes. -/
theorem execStream_cons {c : Instr} {b : Block} {s t : State} (h : exec c { s with din := b } = .next t)
    (bs : List Block) : execStream c (b :: bs) s = (execStream c bs t).map fun r => (t.st :: r.1, r.2) := by
  rw [execStream, h]

/-- R210, R212: ENC of the blocks of a stream, by induction on them: each completion leaves the chain value of the
next. -/
theorem execStream_enc {s : State} (hk : s.keyv = true) (hv : s.chv = true) (bs : List Block) :
    ∃ t, execStream .enc bs s = some (encryptBlocks s.rk s.chain bs, t) ∧
      t.chain = (encryptBlocks s.rk s.chain bs).getLastD s.chain := by
  induction bs generalizing s with
  | nil => exact ⟨s, rfl, rfl⟩
  | cons b bs ih =>
    have hrun : exec .enc { s with din := b } = .next (finishCommand (effect .enc { s with din := b })) :=
      exec_runs (refusalCode_eq_none.mpr ⟨rfl, fun _ => hk, fun _ => hv⟩)
    obtain ⟨t, ht, hchain⟩ := ih (s := finishCommand (effect .enc { s with din := b })) hk hv
    refine ⟨t, ?_, ?_⟩
    · rw [execStream_cons hrun, ht]
      rfl
    · rw [hchain, encryptBlocks, List.getLastD_cons]
      rfl

/-- R210, R213: DEC of the blocks of a stream: each completion leaves its ciphertext block as the next chain value. -/
theorem execStream_dec {s : State} (hk : s.keyv = true) (hv : s.chv = true) (bs : List Block) :
    ∃ t, execStream .dec bs s = some (decryptBlocks s.rk s.chain bs, t) ∧ t.chain = bs.getLastD s.chain := by
  induction bs generalizing s with
  | nil => exact ⟨s, rfl, rfl⟩
  | cons b bs ih =>
    have hrun : exec .dec { s with din := b } = .next (finishCommand (effect .dec { s with din := b })) :=
      exec_runs (refusalCode_eq_none.mpr ⟨rfl, fun _ => hk, fun _ => hv⟩)
    obtain ⟨t, ht, hchain⟩ := ih (s := finishCommand (effect .dec { s with din := b })) hk hv
    refine ⟨t, ?_, ?_⟩
    · rw [execStream_cons hrun, ht]
      rfl
    · rw [hchain, List.getLastD_cons]
      rfl

/-- R216: an encrypted stream split anywhere. -/
theorem encryptBlocks_append (rk : Schedule) (c : Block) (xs ys : List Block) :
    encryptBlocks rk c (xs ++ ys) =
      encryptBlocks rk c xs ++ encryptBlocks rk ((encryptBlocks rk c xs).getLastD c) ys := by
  induction xs generalizing c with
  | nil => rfl
  | cons x xs ih => simp only [List.cons_append, encryptBlocks, ih, List.getLastD_cons]

/-- R216: a decrypted stream split anywhere. -/
theorem decryptBlocks_append (rk : Schedule) (c : Block) (xs ys : List Block) :
    decryptBlocks rk c (xs ++ ys) = decryptBlocks rk c xs ++ decryptBlocks rk (xs.getLastD c) ys := by
  induction xs generalizing c with
  | nil => rfl
  | cons x xs ih => simp only [List.cons_append, decryptBlocks, ih, List.getLastD_cons]

/-- R214: the blocks either command gives, from the schedule and the chain value of a state that has both. -/
theorem execStream_blocks {s : State} (hk : s.keyv = true) (hv : s.chv = true) (bs : List Block) :
    (∃ t, execStream .enc bs s = some (encryptBlocks s.rk s.chain bs, t)) ∧
      ∃ t, execStream .dec bs s = some (decryptBlocks s.rk s.chain bs, t) := by
  obtain ⟨t, ht, -⟩ := execStream_enc hk hv bs
  obtain ⟨u, hu, -⟩ := execStream_dec hk hv bs
  exact ⟨⟨t, ht⟩, u, hu⟩

/-- R211, R216: CHINIT with a saved chain value in IV, and the stream that goes on from it. -/
theorem chinit_resumes_stream (s : State) (c : Block) :
    ∃ t, exec .chinit { s with iv := c } = .next t ∧ t.chain = c ∧ t.chv = true ∧ t.rk = s.rk ∧ t.keyv = s.keyv ∧
      (s.keyv = true → ∀ ys : List Block,
        (∃ u, execStream .enc ys t = some (encryptBlocks s.rk c ys, u)) ∧
          ∃ u, execStream .dec ys t = some (decryptBlocks s.rk c ys, u)) :=
  ⟨_, chinitTakesIv _, rfl, rfl, rfl, rfl, fun hk ys => execStream_blocks (by exact hk) (by rfl) ys⟩

/-- Settles O56: after KEYEXP of the stream's key, CHINIT finds that key's schedule with KEYV = 1. -/
theorem resumedStreamIsUnbroken : Obligations.ResumedStreamIsUnbroken := by
  refine ⟨chinit_resumes_stream, fun s key c => ?_, fun rk c xs ys =>
    ⟨encryptBlocks_append rk c xs ys, decryptBlocks_append rk c xs ys⟩⟩
  obtain ⟨u, hu, -, -, -, -, hstream⟩ :=
    chinit_resumes_stream { s with key := key, rk := expand key, keyv := true, pend := none, done := true } c
  exact ⟨_, u, exec_keyexp _, hu, hstream rfl⟩

end Sys2Proof.Machine
end

section
/-!
The round operations on a State (42_round_transforms.md): their inverses (R172), the linearity of the two mixing
operations (R173), and substitution with rotation (R174).

Both mixing operations multiply every column by a matrix over GF(2^8). One after the other they multiply it by the
product of their matrices, and that product is the identity matrix in either order.
-/

namespace Sys2Proof.Machine

/-! ### AddRoundKey, substitution and rotation (R172, R174) -/

theorem addRoundKey_addRoundKey (s k : Block) : addRoundKey (addRoundKey s k) k = s :=
  block_ext fun r c => by simp only [cell_addRoundKey, BitVec.xor_assoc, BitVec.xor_self, BitVec.xor_zero]

theorem invSubBytes_subBytes (s : Block) : invSubBytes (subBytes s) = s :=
  block_ext fun r c => by rw [cell_invSubBytes, cell_subBytes, invSbox_sbox]

theorem subBytes_invSubBytes (s : Block) : subBytes (invSubBytes s) = s :=
  block_ext fun r c => by rw [cell_subBytes, cell_invSubBytes, sbox_invSbox]

/-- R164: columns are counted mod 4, so stepping `r` columns one way and then the other ends where it began. -/
theorem column_sub_add (c r : Fin 4) : c - r + r = c := by
  revert c r
  decide

theorem column_add_sub (c r : Fin 4) : c + r - r = c := by
  revert c r
  decide

theorem invShiftRows_shiftRows (s : Block) : invShiftRows (shiftRows s) = s :=
  block_ext fun r c => by rw [cell_invShiftRows, cell_shiftRows, column_sub_add]

theorem shiftRows_invShiftRows (s : Block) : shiftRows (invShiftRows s) = s :=
  block_ext fun r c => by rw [cell_shiftRows, cell_invShiftRows, column_add_sub]

theorem shiftRows_subBytes (s : Block) : shiftRows (subBytes s) = subBytes (shiftRows s) :=
  block_ext fun r c => by rw [cell_shiftRows, cell_subBytes, cell_subBytes, cell_shiftRows]

theorem invShiftRows_invSubBytes (s : Block) : invShiftRows (invSubBytes s) = invSubBytes (invShiftRows s) :=
  block_ext fun r c => by rw [cell_invShiftRows, cell_invSubBytes, cell_invSubBytes, cell_invShiftRows]

/-- Settles O49: a substitution of every byte does not see where the bytes stand. -/
theorem substitutionCommutesWithRotation : Obligations.SubstitutionCommutesWithRotation :=
  fun s => ⟨shiftRows_subBytes s, invShiftRows_invSubBytes s⟩

/-! ### Columns times a matrix (R167) -/

/-- R121: `gmul_zero`, with the factors swapped. -/
theorem gmul_zero_left (a : Byte) : gmul 0 a = 0 := (gmul_comm 0 a).trans (gmul_zero a)

/-- R167: the product of two 4×4 matrices over GF(2^8). -/
def matrixProduct (m n : Fin 4 → Fin 4 → Byte) (r k : Fin 4) : Byte :=
  gmul (m r 0) (n 0 k) ^^^ gmul (m r 1) (n 1 k) ^^^ gmul (m r 2) (n 2 k) ^^^ gmul (m r 3) (n 3 k)

/-- R172: the 4×4 identity matrix over GF(2^8). -/
def identityMatrix (r k : Fin 4) : Byte := if r = k then 1 else 0

/-- R172: two matrices in turn are one, their product. -/
theorem dotColumn_ofCells_dotColumn (m n : Fin 4 → Fin 4 → Byte) (s : Block) (r c : Fin 4) :
    dotColumn m (ofCells (dotColumn n s)) r c = dotColumn (matrixProduct m n) s r c := by
  simp only [dotColumn, matrixProduct, cell_ofCells, gmul_xor, xor_gmul, gmul_assoc]
  ac_rfl

theorem dotColumn_identityMatrix (s : Block) (r c : Fin 4) : dotColumn identityMatrix s r c = cell s r c := by
  match r with
  | 0 | 1 | 2 | 3 =>
    simp only [dotColumn, identityMatrix, Fin.reduceEq, reduceIte, gmul_one_left, gmul_zero_left]
    simp

/-- R172: a matrix undoes another when their product is the identity. -/
theorem ofCells_dotColumn_inverse {m n : Fin 4 → Fin 4 → Byte} (h : matrixProduct m n = identityMatrix) (s : Block) :
    ofCells (dotColumn m (ofCells (dotColumn n s))) = s :=
  block_ext fun r c => by rw [cell_ofCells, dotColumn_ofCells_dotColumn, h, dotColumn_identityMatrix]

/-- R167: a matrix acts on columns linearly. -/
theorem ofCells_dotColumn_addRoundKey (m : Fin 4 → Fin 4 → Byte) (s t : Block) :
    ofCells (dotColumn m (addRoundKey s t)) = addRoundKey (ofCells (dotColumn m s)) (ofCells (dotColumn m t)) := by
  apply block_ext
  intro r c
  simp only [cell_addRoundKey, cell_ofCells, dotColumn, gmul_xor]
  ac_rfl

theorem addRoundKey_self (s : Block) : addRoundKey s s = .zero := by
  simp [addRoundKey_words, Block.zero]

theorem zero_addRoundKey (s : Block) : addRoundKey .zero s = s := by
  simp [addRoundKey_words, Block.zero]

/-- R167: a linear map fixes zero, the XOR of a State with itself. -/
theorem ofCells_dotColumn_zero (m : Fin 4 → Fin 4 → Byte) : ofCells (dotColumn m .zero) = .zero := by
  have hsum := ofCells_dotColumn_addRoundKey m .zero .zero
  rwa [addRoundKey_self, addRoundKey_self] at hsum

/-! ### The two mixing operations (R167, R172, R173) -/

/-- R133, R134: the matrices are inverse to each other, entry by entry. -/
theorem matrixProduct_invMix_mix : matrixProduct invMixMatrix mixMatrix = identityMatrix := by
  funext r k
  revert r k
  decide +kernel

theorem matrixProduct_mix_invMix : matrixProduct mixMatrix invMixMatrix = identityMatrix := by
  funext r k
  revert r k
  decide +kernel

/-- R173: mixing does not fix the State whose only nonzero byte is 1. -/
theorem mixColumns_ne_self : mixColumns ⟨1, 0, 0, 0⟩ ≠ ⟨1, 0, 0, 0⟩ := by decide +kernel

/-- Settles O47: the ROMs and the matrices are inverse to each other, and rotating a row back undoes its rotation. -/
theorem roundOperationsInvert : Obligations.RoundOperationsInvert := fun s k =>
  ⟨addRoundKey_addRoundKey s k, invSubBytes_subBytes s, subBytes_invSubBytes s, invShiftRows_shiftRows s,
    shiftRows_invShiftRows s, ofCells_dotColumn_inverse matrixProduct_invMix_mix s,
    ofCells_dotColumn_inverse matrixProduct_mix_invMix s⟩

/-- Settles O48: by linearity, mixing after the key is added adds the mixed key, which is not the key for a key that
mixing does not fix. -/
theorem mixColumnsIsLinear : Obligations.MixColumnsIsLinear := by
  refine ⟨fun s t => ⟨ofCells_dotColumn_addRoundKey mixMatrix s t, ofCells_dotColumn_addRoundKey invMixMatrix s t⟩,
    ofCells_dotColumn_zero mixMatrix, ofCells_dotColumn_zero invMixMatrix, .zero, ⟨1, 0, 0, 0⟩, fun h => ?_⟩
  have hmix : mixColumns .zero = .zero := ofCells_dotColumn_zero mixMatrix
  rw [hmix, zero_addRoundKey] at h
  exact mixColumns_ne_self h

end Sys2Proof.Machine
end

section
/-!
The block cipher (43_block_cipher.md): the stages of Cipher and InvCipher (R190, R192), its known answer (R196), that
each undoes the other (R195), and the primitive commands that compute it (45_control.md R232).

A decrypt stage undoes the encrypt stage of its round key up to substitution and rotation: what stands between two
encrypt stages is the State, between two decrypt stages the State substituted and rotated.
-/

namespace Sys2Proof.Machine

/-! ### The stages (R190, R192, R196) -/

/-- Settles O50: the fold over the round keys, unrolled. -/
theorem cipherStages : Obligations.CipherStages := by
  intro s rk
  simp only [cipher, List.foldl_cons, List.foldl_nil, cipherStage]

/-- Settles O51: the fold over the round keys, unrolled. -/
theorem invCipherStages : Obligations.InvCipherStages := by
  intro s rk
  simp only [invCipher, List.foldl_cons, List.foldl_nil, invCipherStage]

/-- Settles O52: the model computes the answer. -/
theorem knownAnswer : Obligations.KnownAnswer := by
  unfold Obligations.KnownAnswer
  decide +kernel

/-! ### Cipher and InvCipher undo each other (R195) -/

/-- R172: a decrypt stage takes the substituted and rotated result of the encrypt stage of its round key back to the
substituted and rotated State before that stage. -/
theorem invCipherStage_cipherStage (rk : Schedule) (s : Block) (r : Fin 11) :
    invCipherStage rk (shiftRows (subBytes (cipherStage rk s r))) r = shiftRows (subBytes s) := by
  rw [invCipherStage, invShiftRows_shiftRows, invSubBytes_subBytes, cipherStage, addRoundKey_addRoundKey]
  exact ofCells_dotColumn_inverse matrixProduct_invMix_mix _

/-- R172: and an encrypt stage undoes the decrypt stage of its round key in the same way. -/
theorem cipherStage_invCipherStage (rk : Schedule) (s : Block) (r : Fin 11) :
    cipherStage rk (invSubBytes (invShiftRows (invCipherStage rk s r))) r = invSubBytes (invShiftRows s) := by
  have hmix : mixColumns (invCipherStage rk s r) = addRoundKey (invSubBytes (invShiftRows s)) (roundKey rk r) :=
    ofCells_dotColumn_inverse matrixProduct_mix_invMix _
  rw [cipherStage, subBytes_invSubBytes, shiftRows_invShiftRows, hmix, addRoundKey_addRoundKey]

/-- When each stage `g` undoes the stage `f` of its round key up to `e`, the stages `g` in reverse order undo the stages
`f` up to `e`. -/
theorem foldl_reverse_undoes {f g : Block → Fin 11 → Block} {e : Block → Block}
    (h : ∀ s r, g (e (f s r)) r = e s) (rs : List (Fin 11)) (s : Block) :
    rs.reverse.foldl g (e (rs.foldl f s)) = e s := by
  induction rs generalizing s with
  | nil => rfl
  | cons r rs ih => rw [List.foldl_cons, List.reverse_cons, List.foldl_append, ih, List.foldl_cons, h, List.foldl_nil]

/-- R192, R195 -/
theorem invCipher_cipher (s : Block) (rk : Schedule) : invCipher (cipher s rk) rk = s := by
  have hstages (x : Block) : [9, 8, 7, 6, 5, 4, 3, 2, 1].foldl (invCipherStage rk)
      (shiftRows (subBytes ([1, 2, 3, 4, 5, 6, 7, 8, 9].foldl (cipherStage rk) x))) = shiftRows (subBytes x) :=
    foldl_reverse_undoes (e := fun y => shiftRows (subBytes y)) (invCipherStage_cipherStage rk)
      [1, 2, 3, 4, 5, 6, 7, 8, 9] x
  rw [invCipher, cipher, addRoundKey_addRoundKey, hstages, invShiftRows_shiftRows, invSubBytes_subBytes,
    addRoundKey_addRoundKey]

/-- R190, R195 -/
theorem cipher_invCipher (s : Block) (rk : Schedule) : cipher (invCipher s rk) rk = s := by
  have hstages (x : Block) : [1, 2, 3, 4, 5, 6, 7, 8, 9].foldl (cipherStage rk)
      (invSubBytes (invShiftRows ([9, 8, 7, 6, 5, 4, 3, 2, 1].foldl (invCipherStage rk) x))) =
        invSubBytes (invShiftRows x) :=
    foldl_reverse_undoes (e := fun y => invSubBytes (invShiftRows y)) (cipherStage_invCipherStage rk)
      [9, 8, 7, 6, 5, 4, 3, 2, 1] x
  rw [cipher, invCipher, addRoundKey_addRoundKey, hstages, subBytes_invSubBytes, shiftRows_invShiftRows,
    addRoundKey_addRoundKey]

/-- Settles O53. -/
theorem invCipherInvertsCipher : Obligations.InvCipherInvertsCipher :=
  fun s rk => ⟨invCipher_cipher s rk, cipher_invCipher s rk⟩

/-! ### Commands completed one after another (R40) -/

/-- R40: the state a command leaves when its checks pass. -/
def afterCommand (s : State) (i : Instr) : State := finishCommand (effect i s)

/-- R29, R30: no completion clears KEYV or CHV, so a command that may run before another completes may run after it. -/
theorem refusalCode_afterCommand {i : Instr} {s : State} (h : refusalCode i s = none) (j : Instr) :
    refusalCode i (afterCommand s j) = none := by
  have hkey : s.keyv = true → (afterCommand s j).keyv = true := by
    obtain ⟨-, hk⟩ | ⟨-, -, hk⟩ := effect_schedule j s <;> simp [afterCommand, hk]
  have hchain : s.chv = true → (afterCommand s j).chv = true := by
    obtain hv | ⟨-, hv⟩ := effect_chv j s <;> simp [afterCommand, hv]
  obtain ⟨hlegal, hneedsKey, hneedsChain⟩ := refusalCode_eq_none.mp h
  exact refusalCode_eq_none.mpr ⟨hlegal, hkey ∘ hneedsKey, hchain ∘ hneedsChain⟩

/-- Commands that may all run in a state complete one after another from it. -/
theorem execAll_runs {is : List Instr} {s : State} (h : ∀ i ∈ is, refusalCode i s = none) :
    execAll is s = .next (is.foldl afterCommand s) := by
  induction is generalizing s with
  | nil => rfl
  | cons i is ih =>
    obtain ⟨hi, his⟩ := List.forall_mem_cons.mp h
    rw [execAll, exec_runs hi]
    exact ih fun j hj => refusalCode_afterCommand (his j hj) i

/-! ### The primitive commands compute Cipher (R232) -/

/-- R190, R232: the primitive commands of one of stages 1 to 9, with round key `r`. -/
def stageCommands (r : BitVec 4) : List Instr := [.sub, .shr, .mix, .ark r]

/-- R162, R165, R168, R170: they apply the stage to ST and leave CHAIN and RK. -/
theorem foldl_stageCommands (s : State) (r : BitVec 4) :
    ((stageCommands r).foldl afterCommand s).st = cipherStage s.rk s.st (Fin.ofNat 11 r.toNat) ∧
      ((stageCommands r).foldl afterCommand s).chain = s.chain ∧
      ((stageCommands r).foldl afterCommand s).rk = s.rk := by
  simp only [stageCommands, List.foldl_cons, List.foldl_nil, afterCommand, effect, finishCommand, cipherStage,
    arkRoundKey, and_self]

/-- R170, R232: LDST and ARK 0 are stage 0 of Cipher. -/
theorem foldl_firstCommands (s : State) :
    ([.ldst, .ark 0].foldl afterCommand s).st = addRoundKey s.din (roundKey s.rk 0) ∧
      ([.ldst, .ark 0].foldl afterCommand s).chain = s.chain ∧ ([.ldst, .ark 0].foldl afterCommand s).rk = s.rk := by
  have hkey : arkRoundKey s.rk 0 = roundKey s.rk 0 := rfl
  simp only [List.foldl_cons, List.foldl_nil, afterCommand, effect, finishCommand, hkey, and_self]

/-- R162, R165, R170: SUB, SHR and ARK 10 are stage 10 of Cipher. -/
theorem foldl_lastCommands (s : State) :
    ([.sub, .shr, .ark 10].foldl afterCommand s).st = addRoundKey (shiftRows (subBytes s.st)) (roundKey s.rk 10) ∧
      ([.sub, .shr, .ark 10].foldl afterCommand s).chain = s.chain := by
  have hkey : arkRoundKey s.rk 10 = roundKey s.rk 10 := rfl
  simp only [List.foldl_cons, List.foldl_nil, afterCommand, effect, finishCommand, hkey, and_self]

/-- R190, R232: stage after stage, by induction on the round keys. -/
theorem foldl_flatMap_stageCommands (rs : List (BitVec 4)) (s : State) :
    ((rs.flatMap stageCommands).foldl afterCommand s).st =
        (rs.map fun r => Fin.ofNat 11 r.toNat).foldl (cipherStage s.rk) s.st ∧
      ((rs.flatMap stageCommands).foldl afterCommand s).chain = s.chain ∧
      ((rs.flatMap stageCommands).foldl afterCommand s).rk = s.rk := by
  induction rs generalizing s with
  | nil => exact ⟨rfl, rfl, rfl⟩
  | cons r rs ih =>
    obtain ⟨hst, hchain, hrk⟩ := foldl_stageCommands s r
    rw [List.flatMap_cons, List.foldl_append, List.map_cons, List.foldl_cons, ← hst, ← hchain, ← hrk]
    exact ih _

/-- R232: the primitive commands of Cipher, as the sequence of R190 has them. -/
def cipherCommands : List Instr :=
  [.ldst, .ark 0] ++ [1, 2, 3, 4, 5, 6, 7, 8, 9].flatMap stageCommands ++ [.sub, .shr, .ark 10]

/-- R93, R94: each of them names a legal round key and needs at most KEYV. -/
theorem cipherCommands_run {s : State} (hk : s.keyv = true) : ∀ i ∈ cipherCommands, refusalCode i s = none := by
  have hchecks : ∀ i ∈ cipherCommands, roundKeyLegal i i.rkOperand = true ∧ needsChain i = false := by decide
  intro i hi
  obtain ⟨hlegal, hchain⟩ := hchecks i hi
  exact refusalCode_eq_none.mpr ⟨hlegal, fun _ => hk, by simp [hchain]⟩

/-- R190, R232: what they leave in ST and in CHAIN. -/
theorem foldl_cipherCommands (s : State) :
    (cipherCommands.foldl afterCommand s).st = cipher s.din s.rk ∧
      (cipherCommands.foldl afterCommand s).chain = s.chain := by
  obtain ⟨hst0, hchain0, hrk0⟩ := foldl_firstCommands s
  obtain ⟨hst9, hchain9, hrk9⟩ := foldl_flatMap_stageCommands [1, 2, 3, 4, 5, 6, 7, 8, 9]
    ([.ldst, .ark 0].foldl afterCommand s)
  have hkeys : ([1, 2, 3, 4, 5, 6, 7, 8, 9] : List (BitVec 4)).map (fun r => Fin.ofNat 11 r.toNat) =
      [1, 2, 3, 4, 5, 6, 7, 8, 9] := by decide
  rw [hkeys] at hst9
  rw [cipherCommands, List.foldl_append, List.foldl_append, (foldl_lastCommands _).1, (foldl_lastCommands _).2,
    hst9, hchain9, hrk9, hst0, hchain0, hrk0, cipher]
  exact ⟨rfl, rfl⟩

/-- Settles O59: every command of the sequence passes its checks, so the sequence completes with its effects in turn. -/
theorem primitivesComputeCipher : Obligations.PrimitivesComputeCipher := by
  intro s hk
  exact ⟨_, execAll_runs (cipherCommands_run hk), foldl_cipherCommands s⟩

end Sys2Proof.Machine
end

section
/-!
The chaining layer (44_chaining.md): the refusal of a wrong block length (R220), the blocks ENC and DEC compute (R210,
R212 to R214), the plain cipher with CHAIN = 0 (R217), the round trip (R218), and the effect of another IV (R219).

A chain value is only ever added to a block, before Cipher or after InvCipher. So what these statements need of it are
the laws of XOR, and of the cipher that InvCipher undoes it.
-/

namespace Sys2Proof.Machine

/-! ### A declared block length that is refused (R220) -/

/-- R220, R242: the checks of the decoder on ENC and DEC with a declared length other than 16. -/
theorem lengthReject_blockCommand {op : Nat} (hop : op = 3 ∨ op = 4) {len : BitVec 8} (hlen : len ≠ 16) :
    ∃ i, instrOfOpcode (BitVec.ofNat 6 op) 0 = some i ∧ roundKeyLegal i 0 = true ∧
      lengthReject i len = some .blockLength := by
  obtain rfl | rfl := hop
  · exact ⟨.enc, rfl, rfl, if_neg hlen⟩
  · exact ⟨.dec, rfl, rfl, if_neg hlen⟩

/-- Settles O9: the decoder rejects the word for its length, and a rejected word changes ERR and DONE only. -/
theorem wrongBlockLengthIsRefused : Obligations.WrongBlockLengthIsRefused := by
  intro s len op rest hlt hne hop hp hi
  obtain ⟨hopField, hrk, hlen, hrsv⟩ := fields_of_lengthWord hlt (op := op) (by omega)
  have hne' : BitVec.ofNat 8 len ≠ 16 := by bv_omega
  obtain ⟨i, hinstr, hlegal, hreject⟩ := lengthReject_blockCommand hop hne'
  exact step_rejects_word (decode_rejects_length hrsv (by rw [hopField, hrk]; exact hinstr)
    (by rw [hrk]; exact hlegal) (by rw [hlen, hreject])) hp hi

/-! ### XOR with a chain value (R170) -/

theorem addRoundKey_comm (s k : Block) : addRoundKey s k = addRoundKey k s :=
  block_ext fun r c => by rw [cell_addRoundKey, cell_addRoundKey, BitVec.xor_comm]

theorem addRoundKey_assoc (s k l : Block) : addRoundKey (addRoundKey s k) l = addRoundKey s (addRoundKey k l) :=
  block_ext fun r c => by simp only [cell_addRoundKey, BitVec.xor_assoc]

theorem addRoundKey_zero (s : Block) : addRoundKey s .zero = s := by
  rw [addRoundKey_comm, zero_addRoundKey]

theorem addRoundKey_left_cancel {s k l : Block} (h : addRoundKey s k = addRoundKey s l) : k = l := by
  rw [addRoundKey_comm s k, addRoundKey_comm s l] at h
  rw [← addRoundKey_addRoundKey k s, h, addRoundKey_addRoundKey]

/-! ### One block (R212, R213, R218, R219) -/

/-- R218: a block decrypts with the chain value it was encrypted with. -/
theorem decBlock_encBlock (b c : Block) (rk : Schedule) : decBlock (encBlock b c rk) c rk = b := by
  rw [decBlock, encBlock, invCipher_cipher, addRoundKey_addRoundKey]

/-- R195, R219: Cipher is one-to-one, so a block encrypts differently with every chain value. -/
theorem encBlock_chain_injective {b c c' : Block} {rk : Schedule} (h : encBlock b c rk = encBlock b c' rk) :
    c = c' := by
  have hwhitened : addRoundKey b c = addRoundKey b c' := by
    rw [← invCipher_cipher (addRoundKey b c) rk, ← invCipher_cipher (addRoundKey b c') rk]
    exact congrArg (invCipher · rk) h
  exact addRoundKey_left_cancel hwhitened

/-- R219: with another chain value a block decrypts to its plaintext XORed with the difference of the chain values. -/
theorem decBlock_other_chain (b c c' : Block) (rk : Schedule) :
    decBlock b c' rk = addRoundKey (decBlock b c rk) (addRoundKey c c') := by
  rw [decBlock, decBlock, ← addRoundKey_assoc, addRoundKey_addRoundKey]

/-- Settles O57: a chain value of 0 whitens nothing. -/
theorem zeroChainIsPlainCipher : Obligations.ZeroChainIsPlainCipher := by
  intro s hk hv hzero
  obtain ⟨c, hc, henc⟩ := encEncryptsAndChains s hk hv
  refine ⟨⟨_, henc, ?_⟩, _, decDecryptsAndChains s hk hv, ?_⟩
  · rw [hc, hzero, addRoundKey_zero]
  · rw [hzero, addRoundKey_zero]

/-! ### Streams (R210, R214, R218, R219) -/

/-- Settles O55: each completion leaves the block of R210, and the chain value of the next. -/
theorem commandsComputeTheStream : Obligations.CommandsComputeTheStream :=
  fun _ blocks hk hv => ⟨execStream_enc hk hv blocks, execStream_dec hk hv blocks⟩

/-- R218, by induction on the blocks: the ciphertext block that ENC leaves as the next chain value is the one that DEC
takes from the stream. -/
theorem decryptBlocks_encryptBlocks (rk : Schedule) (c : Block) (bs : List Block) :
    decryptBlocks rk c (encryptBlocks rk c bs) = bs := by
  induction bs generalizing c with
  | nil => rfl
  | cons b bs ih => rw [encryptBlocks, decryptBlocks, decBlock_encBlock, ih]

/-- Settles O54: both streams use the schedule of the one key. -/
theorem streamRoundTrip : Obligations.StreamRoundTrip :=
  fun key iv blocks => decryptBlocks_encryptBlocks (expand key) iv blocks

/-- Settles O58: the IV enters the first block only; the chain value of a later block on decryption is a ciphertext
block. -/
theorem ivSensitivity : Obligations.IvSensitivity := by
  intro key iv iv' b bs hne
  refine ⟨fun h => hne (encBlock_chain_injective (Option.some.inj h)), decBlock b iv (expand key),
    decryptBlocks (expand key) b bs, rfl, ?_⟩
  rw [decryptStream, decryptBlocks, decBlock_other_chain b iv iv']

end Sys2Proof.Machine
end

section
/-!
A CMD write to an idle core (60_exceptions.md R241 to R243): the checks of R242 as the spec reads them off the fields of
the word, each the failure of one check of the decoder or of one precondition.
-/

namespace Sys2Proof.Machine

/-! ### The checks on the fields RSV, OP, RK and LEN (R94 to R97) -/

/-- R96: some bit of RSV is 1 exactly when one of its three ranges of bits is not 0. -/
theorem reservedField_ne_zero_iff {v : Word} :
    reservedField v ≠ 0 ↔ v.extractLsb' 24 8 ≠ 0 ∨ v.extractLsb' 12 4 ≠ 0 ∨ v.extractLsb' 6 2 ≠ 0 := by
  simp only [ne_eq, reservedField_eq_zero_iff, Classical.not_and_iff_not_or_not]

/-- R97: an opcode is reserved exactly when no row of R93 has it. -/
theorem instrOfOpcode_eq_none_iff {op : BitVec 6} {rk : BitVec 4} :
    instrOfOpcode op rk = none ↔ op ∉ [0x00#6, 0x01#6, 0x02#6, 0x03#6, 0x04#6, 0x08#6, 0x10#6, 0x11#6, 0x12#6, 0x13#6,
      0x14#6, 0x15#6, 0x16#6, 0x17#6] := by
  unfold instrOfOpcode
  split <;> simp_all

/-- R94: the field RK is illegal above 10 for ARK, and when it is not 0 for every other command. -/
theorem roundKeyLegal_eq_false_iff {i : Instr} {rk : BitVec 4} :
    roundKeyLegal i rk = false ↔ if i.opcode = 0x16#6 then 10 < rk.toNat else rk ≠ 0 := by
  cases i <;> simp [Instr.opcode, roundKeyLegal]

/-- R95: LEN is not 0 for a command other than KEYEXP, ENC and DEC. -/
theorem lengthReject_eq_lengthField_iff {i : Instr} {len : BitVec 8} :
    lengthReject i len = some .lengthField ↔ i.opcode ∉ [0x01#6, 0x03#6, 0x04#6] ∧ len ≠ 0 := by
  cases i <;> simp [Instr.opcode, lengthReject]

/-- R146: LEN is not 16 for KEYEXP. -/
theorem lengthReject_eq_keyLength_iff {i : Instr} {len : BitVec 8} :
    lengthReject i len = some .keyLength ↔ i = .keyexp ∧ len ≠ 16 := by
  cases i <;> simp [lengthReject]

/-- R220: LEN is not 16 for ENC or DEC. -/
theorem lengthReject_eq_blockLength_iff {i : Instr} {len : BitVec 8} :
    lengthReject i len = some .blockLength ↔ i.opcode ∈ [0x03#6, 0x04#6] ∧ len ≠ 16 := by
  cases i <;> simp [Instr.opcode, lengthReject]

/-- R95, R146, R220: a bad LEN has one of three causes. -/
theorem lengthReject_eq_none {i : Instr} {len : BitVec 8} (hfield : lengthReject i len ≠ some .lengthField)
    (hkey : lengthReject i len ≠ some .keyLength) (hblock : lengthReject i len ≠ some .blockLength) :
    lengthReject i len = none := by
  cases i <;> simp_all [lengthReject]

/-! ### The preconditions and KEYEXP by opcode (R93) -/

/-- R93: the commands that need KEYV are ENC, DEC and ARK. -/
theorem needsKey_iff {i : Instr} : needsKey i = true ↔ i.opcode ∈ [0x03#6, 0x04#6, 0x16#6] := by
  cases i <;> simp [Instr.opcode, needsKey]

/-- R93: the commands that need CHV are ENC, DEC and ARKC. -/
theorem needsChain_iff {i : Instr} : needsChain i = true ↔ i.opcode ∈ [0x03#6, 0x04#6, 0x17#6] := by
  cases i <;> simp [Instr.opcode, needsChain]

/-- R93: KEYEXP alone has the opcode 1. -/
theorem opcode_eq_keyexp_iff {i : Instr} : i.opcode = 0x01#6 ↔ i = .keyexp := by
  cases i <;> simp [Instr.opcode]

/-! ### The decoder's checks in order (R242) -/

section
variable {v : Word} {i : Instr}

/-- R96, R242: the check of RSV is the first. -/
theorem decode_rejects_reservedBits (h : reservedField v ≠ 0) : decode v = .reject .reservedBits := if_pos h

/-- R97, R242: the check of OP is the second. -/
theorem decode_rejects_opcode (hrsv : reservedField v = 0) (h : instrOfOpcode (opField v) (rkField v) = none) :
    decode v = .reject .reservedOpcode := by
  simp [decode, hrsv, h]

/-- R94, R242: the check of RK is the third. -/
theorem decode_rejects_roundKey (hrsv : reservedField v = 0)
    (hi : instrOfOpcode (opField v) (rkField v) = some i) (h : roundKeyLegal i (rkField v) = false) :
    decode v = .reject .roundKeyField := by
  simp [decode, hrsv, hi, h]

/-- R241, R242: the step that takes a CMD write to an idle core of a command with an unmet precondition. -/
theorem step_refuses_command {s : State} {code : ErrCode} {rest : List Event} (hd : decode v = .command i)
    (hp : s.pend = none) (hc : refusalCode i s = some code) (hi : s.inputs = .access (.write 0 v) :: rest) :
    step s = .next { s with inputs := rest, err := code, done := true } := by
  have hc' : refusalCode i { s with inputs := rest } = some code := hc
  have hpres : presentCommand v { s with inputs := rest } = raiseCmdError code { s with inputs := rest } := by
    simp [presentCommand, hd, hc']
  rw [step_cons hi, runEvent, performAccess_write_cmd (by exact hp), hpres, raiseCmdError, ← hp]

end

/-- Settles O7: once the opcode names a command `i`, each further condition on the fields is the failure of one check of
the model on `i`, and both make the checks in the same order. -/
theorem cmdWriteRunsTheChecksInOrder : Obligations.CmdWriteRunsTheChecksInOrder := by
  intro s v rest hi hp s0 op rk len refused
  have hrejected {e : Reject} (hd : decode v = .reject e) : refused (rejectCode e) := step_rejects_word hd hp hi
  simp only [← reservedField_ne_zero_iff]
  by_cases hrsv : reservedField v = 0
  case neg =>
    rw [if_pos hrsv]
    exact hrejected (decode_rejects_reservedBits hrsv)
  rw [if_neg (not_not_intro hrsv)]
  cases hinstr : instrOfOpcode op rk with
  | none =>
    rw [if_pos (instrOfOpcode_eq_none_iff.mp hinstr)]
    exact hrejected (decode_rejects_opcode hrsv hinstr)
  | some i =>
    have hopcode : op = i.opcode := (opcode_of_instrOfOpcode hinstr).symm
    have hknown : ¬ instrOfOpcode op rk = none := hinstr ▸ Option.some_ne_none i
    rw [if_neg (hknown ∘ instrOfOpcode_eq_none_iff.mpr), hopcode]
    simp only [opcode_eq_keyexp_iff, ← roundKeyLegal_eq_false_iff, ← lengthReject_eq_lengthField_iff,
      ← lengthReject_eq_keyLength_iff, ← lengthReject_eq_blockLength_iff, ← needsKey_iff, ← needsChain_iff]
    split
    · next hrk => exact hrejected (decode_rejects_roundKey hrsv hinstr hrk)
    next hrk =>
    have hlegal : roundKeyLegal i rk = true := eq_true_of_ne_false hrk
    split
    · next hfield => exact hrejected (decode_rejects_length hrsv hinstr hlegal hfield)
    split
    · next hkey => exact hrejected (decode_rejects_length hrsv hinstr hlegal hkey)
    split
    · next hblock => exact hrejected (decode_rejects_length hrsv hinstr hlegal hblock)
    next hfield hkey hblock =>
    have hdecode : decode v = .command i :=
      decode_eq_command_iff.mpr ⟨hrsv, hinstr, hlegal, lengthReject_eq_none hfield hkey hblock⟩
    obtain ⟨hwf, hv⟩ := (decodeAcceptsExactlyEncodings v i).mp hdecode
    rw [← roundKeyLegal_rkOperand] at hwf
    split
    · next hnokey => exact step_refuses_command hdecode hp (refusalCode_noKey hwf hnokey.1 hnokey.2) hi
    next hkeyv =>
    have hkeyv : needsKey i = true → s.keyv = true := by simpa using hkeyv
    split
    · next hnochain => exact step_refuses_command hdecode hp (refusalCode_noChain hwf hkeyv hnochain.1 hnochain.2) hi
    next hchv =>
    have hchv : needsChain i = true → s.chv = true := by simpa using hchv
    exact ⟨i, hv.symm, step_accepts_command hdecode hp (refusalCode_eq_none.mpr ⟨hwf, hkeyv, hchv⟩) hi⟩

end Sys2Proof.Machine
end
